-- ==== Sys2Proof/Word.lean ====
section
/-! DEFINITION. The two word types of the machine: the unsigned byte of registers, cells and operands, and the nine-bit
address of the program counter and the memory port. -/

namespace Sys2Proof

/-- `u8` (00_scope.md R8): a register value, a memory cell, an op-code or an operand byte. All arithmetic on it is
modulo 256 (10_state.md R24). -/
abbrev Byte := BitVec 8

/-- `u9` (00_scope.md R8): a value of the program counter (10_state.md R26) and an address given to the memory port
(20_memory.md R53), of which only 0..255 exist. -/
abbrev Address := BitVec 9

/-- The index of an existing register, 0..7 (10_state.md R22). -/
abbrev RegIndex := Fin 8

end Sys2Proof
end

