-- ==== Sys2Proof/Syntax.lean ====
section
/-! DEFINITION. The thirteen instructions, one constructor per row of spec/opcode_table.json. -/

namespace Sys2Proof

/-- An instruction with the operand bytes its format holds (30_encoding.md R72, R73). A register-index operand is the
whole byte, 0..255 (R74): bytes 8..255 decode, and an access through one is a fatal condition when the instruction runs. -/
inductive Instr where
  /-- LDI: load immediate (R120), format RI. -/
  | ldi (ra imm8 : Byte)
  /-- PRN: output a register (R121), format R. -/
  | prn (ra : Byte)
  /-- ADD: add registers (R132), format RR. -/
  | add (ra rb : Byte)
  /-- MUL: multiply registers (R133), format RR. -/
  | mul (ra rb : Byte)
  /-- PUSH: push a register (R140), format R. -/
  | push (ra : Byte)
  /-- POP: pop into a register (R141), format R. -/
  | pop (ra : Byte)
  /-- CALL: call the subroutine whose address is in a register (R150), format R. -/
  | call (ra : Byte)
  /-- RET: return from subroutine (R151), format N. -/
  | ret
  /-- CMP: compare two registers for equality (R160), format RR. -/
  | cmp (ra rb : Byte)
  /-- JMP: jump to the address in a register (R161), format R. -/
  | jmp (ra : Byte)
  /-- JEQ: jump if equal (R162), format R. -/
  | jeq (ra : Byte)
  /-- JNE: jump if not equal (R163), format R. -/
  | jne (ra : Byte)
  /-- HLT: stop the loop (R180), format N. -/
  | hlt
deriving DecidableEq, Repr

end Sys2Proof
end

