-- ==== Sys2Proof/Decode.lean ====
section
/-! DEFINITION. The op-code map of 30_encoding.md R72, the decoder (R77, R78), and the encoder (R73, R83). -/

namespace Sys2Proof

/-- The four byte formats (R73). -/
inductive Format where
  /-- one byte: the op-code -/
  | n
  /-- two bytes: op-code, `ra` -/
  | r
  /-- three bytes: op-code, `ra`, `rb` -/
  | rr
  /-- three bytes: op-code, `ra`, `imm8` -/
  | ri
deriving DecidableEq, Repr

/-- The number of bytes of a format (R73). -/
def Format.width : Format → Nat
  | .n => 1
  | .r => 2
  | .rr => 3
  | .ri => 3

/-- One row of the op-code map (R72): `build` puts `operand_a` and `operand_b` into the instruction's fields. -/
structure OpcodeRow where
  mnemonic : String
  opcode : Byte
  format : Format
  build : Byte → Byte → Instr

/-- The op-code map, in the order of R72. Every row matches the whole byte (mask 0xFF, R77). -/
def opcodeTable : List OpcodeRow :=
  [ ⟨"LDI", 0x82#8, .ri, fun a b => .ldi a b⟩,
    ⟨"PRN", 0x47#8, .r, fun a _ => .prn a⟩,
    ⟨"ADD", 0xA0#8, .rr, fun a b => .add a b⟩,
    ⟨"MUL", 0xA2#8, .rr, fun a b => .mul a b⟩,
    ⟨"PUSH", 0x45#8, .r, fun a _ => .push a⟩,
    ⟨"POP", 0x46#8, .r, fun a _ => .pop a⟩,
    ⟨"CALL", 0x50#8, .r, fun a _ => .call a⟩,
    ⟨"RET", 0x11#8, .n, fun _ _ => .ret⟩,
    ⟨"CMP", 0xA7#8, .rr, fun a b => .cmp a b⟩,
    ⟨"JMP", 0x54#8, .r, fun a _ => .jmp a⟩,
    ⟨"JEQ", 0x55#8, .r, fun a _ => .jeq a⟩,
    ⟨"JNE", 0x56#8, .r, fun a _ => .jne a⟩,
    ⟨"HLT", 0x01#8, .n, fun _ _ => .hlt⟩ ]

/-- Why bytes are no instruction. -/
inductive DecodeError where
  /-- the op-code matches no row of R72 (R78) -/
  | unknownInstruction (opcode : Byte)
  /-- fewer than the three bytes that the controller always latches (R102) -/
  | tooFewBytes
deriving DecidableEq, Repr

/-- The decoder on the three latched bytes (R77): the whole op-code is compared with the thirteen values of R72. An
operand byte outside the row's format is ignored (R76). -/
def decode (opcode operandA operandB : Byte) : Except DecodeError Instr :=
  match opcodeTable.find? (fun row => row.opcode == opcode) with
  | some row => .ok (row.build operandA operandB)
  | none => .error (.unknownInstruction opcode)

/-- The decoder on bytes in address order (R55, R70): the three that are latched are the first three (R101, R102). -/
def decodeBytes : List Byte → Except DecodeError Instr
  | opcode :: operandA :: operandB :: _ => decode opcode operandA operandB
  | _ => .error .tooFewBytes

/-- The op-code byte of an instruction (R72). -/
def Instr.opcode : Instr → Byte
  | .ldi _ _ => 0x82#8
  | .prn _ => 0x47#8
  | .add _ _ => 0xA0#8
  | .mul _ _ => 0xA2#8
  | .push _ => 0x45#8
  | .pop _ => 0x46#8
  | .call _ => 0x50#8
  | .ret => 0x11#8
  | .cmp _ _ => 0xA7#8
  | .jmp _ => 0x54#8
  | .jeq _ => 0x55#8
  | .jne _ => 0x56#8
  | .hlt => 0x01#8

/-- The operand bytes of an instruction, in address order (R73). -/
def Instr.operandBytes : Instr → List Byte
  | .ldi ra imm8 => [ra, imm8]
  | .prn ra => [ra]
  | .add ra rb => [ra, rb]
  | .mul ra rb => [ra, rb]
  | .push ra => [ra]
  | .pop ra => [ra]
  | .call ra => [ra]
  | .ret => []
  | .cmp ra rb => [ra, rb]
  | .jmp ra => [ra]
  | .jeq ra => [ra]
  | .jne ra => [ra]
  | .hlt => []

/-- The encoder (R83): the op-code byte, then the operand bytes, at ascending addresses. -/
def encode (i : Instr) : List Byte := i.opcode :: i.operandBytes

/-- The width an op-code encodes in its two most significant bits (R71): `opcode[7:6] + 1`. -/
def widthOf (opcode : Byte) : Nat := opcode.toNat / 64 + 1

/-- The byte at address offset `k` of an instruction whose `nbits` bits are `w`, numbered as spec/opcode_table.json
numbers them; every bit above `nbits` is 0. -/
def tableByte (nbits w k : Nat) : Byte := BitVec.ofNat 8 (w % 2 ^ nbits / 256 ^ k)

/-- The instruction the decoder reads from a row's bits. -/
def decodeTableWord (nbits w : Nat) : Option Instr :=
  match decode (tableByte nbits w 0) (tableByte nbits w 1) (tableByte nbits w 2) with
  | .ok i => some i
  | .error _ => none

end Sys2Proof
end

