-- ==== Sys2Proof/Config.lean ====
section
/-! DEFINITION. The implementation parameters of 00_scope.md R6. -/

namespace Sys2Proof.Config

/-- `MEM_SIZE` (R6): the number of memory cells; `ADDR_RANGE` is 0 to `memSize - 1`. -/
def memSize : Nat := 256

/-- `NREGS` (R6). -/
def numRegs : Nat := 8

/-- `SP_INDEX` (R6): the register that PUSH, POP, CALL and RET use implicitly. -/
def spIndex : RegIndex := 7

/-- `SP_RESET` (R6). -/
def spReset : Byte := 0xF4

/-- `PC_RESET` (R6). -/
def pcReset : Address := 0

/-- The spec's default of the model parameter `MUL_EMITS` (R6, R7; decision D11). The value the machine uses is
`Sys2Proof.Machine.mulEmits` in Machine/Alu.lean (log entry 3). -/
def mulEmitsDefault : Bool := false

end Sys2Proof.Config
end

