-- ==== Sys2Proof/Machine/State.lean ====
section
/-! DEFINITION. The state vector `(MEM, X, PC, FLAG, RUN, FAULT, OUT)` of 10_state.md R20, the reasons a step can stop,
and the state after reset (R37). -/

namespace Sys2Proof.Machine

/-- `RUN` (10_state.md R32). -/
inductive RunState where
  /-- the controller executes the next instruction at each step -/
  | running
  /-- HLT was executed; terminal -/
  | halted
  /-- a fatal condition occurred; terminal -/
  | terminated
deriving DecidableEq, Repr

/-- The kind of a fatal condition (60_exceptions.md R200); kind 0, NONE, is `State.fault = none`. -/
inductive FaultKind where
  /-- the fetched op-code is none of the thirteen -/
  | unknownInstruction
  /-- a memory address outside 0..255, or a register index 8..255 -/
  | addressOutOfRange
  /-- the ALU was asked for an operator other than ADD or MUL -/
  | unsupportedOperation
deriving DecidableEq, Repr

/-- What an AddressOutOfRange is about (10_state.md R33). -/
inductive Space where
  | mem
  | reg
deriving DecidableEq, Repr

/-- "A symbolic operator name" given to the ALU (42_alu.md R130): its two operators, or any other name (R131). -/
inductive AluOp where
  | add
  | mul
  | other (name : String)
deriving DecidableEq, Repr

/-- The fault record (10_state.md R33). A field the rule gives no value for the kind is `none` (log entry 5). -/
structure FaultRecord where
  kind : FaultKind
  /-- `PC` of the instruction being fetched or executed -/
  pc : Address
  /-- the fetched op-code; `none` when the op-code fetch itself failed -/
  opcode : Option Byte
  /-- for AddressOutOfRange: memory or register file -/
  space : Option Space
  /-- for AddressOutOfRange: the offending address, or the register index zero-extended to nine bits -/
  addr : Option Address
  /-- for UnsupportedOperation: the operator named -/
  operator : Option AluOp
deriving DecidableEq, Repr

/-- The memory array as the list of its cells that do not hold `Memory.unlisted`, in the canonical form `Memory.wf`. -/
abbrev Memory := List Host.Cell

/-- What a cell that is not listed reads as: 0, the value of every cell at reset (10_state.md R37, R230; log entry 6). -/
def Memory.unlisted : Byte := 0

/-- The canonical form: addresses strictly rising, each an existing address (20_memory.md R50), and no cell listed that
reads as an unlisted one does. -/
abbrev Memory.wf (m : Memory) : Prop :=
  m.Pairwise (fun c d => c.1 < d.1) ∧ ∀ c ∈ m, c.1 < Config.memSize ∧ c.2 ≠ Memory.unlisted

/-- The state between two steps (10_state.md R20). The bytes a step latches are not part of it (R21). -/
structure State where
  /-- `MEM` (R35) -/
  mem : Memory
  /-- `X[0]` to `X[7]` (R22); `X[7]` is the stack pointer by convention (R23) -/
  regs : Vector Byte 8
  /-- `PC` (R26) -/
  pc : Address
  /-- `FLAG` (R30): true is 1 -/
  flag : Bool
  /-- `RUN` (R32) -/
  run : RunState
  /-- `FAULT` (R33) -/
  fault : Option FaultRecord
  /-- `OUT`: every value delivered to the output port, oldest first (R20) -/
  out : List Byte
deriving DecidableEq, Repr

/-- Faults that stop the model instead of giving a next state: there are none, so this type has no constructor. Every
fatal condition of the spec (60_exceptions.md R200) has an entry that the spec describes (R204), and the model takes it
as a next state with `RUN` TERMINATED (log entry 1). Safe: nothing stops. -/
inductive Fault where
deriving DecidableEq, Repr

/-- Reasons the model gives an instruction no meaning. -/
inductive Refusal where
  /-- Raised only by an arm of `exec` whose instruction has no meaning yet; no arm of this model does. Safe: the model
  stops where the hardware goes on. -/
  | notModelled (mnemonic : String)
deriving DecidableEq, Repr

/-- The outcome of a step or of an instruction. -/
abbrev Result := Host.Outcome State Fault Refusal

/-- The state after reset, before the image is loaded (10_state.md R37, 70_reset_and_hazards.md R230). -/
def State.reset : State where
  mem := []
  regs := (Vector.replicate 8 0).set Config.spIndex Config.spReset
  pc := Config.pcReset
  flag := false
  run := .running
  fault := none
  out := []

end Sys2Proof.Machine
end

