-- ==== Sys2Proof/Machine/Ops.lean ====
section
/-! DEFINITION. The named operations over memory, registers, program counter and output, and fault entry: the primitives
of 00_scope.md R10 to R12. -/

namespace Sys2Proof.Machine

/-! ### The memory array -/

/-- The value of the cell at `a`. -/
def Memory.read : Memory → Nat → Byte
  | [], _ => Memory.unlisted
  | c :: rest, a => if c.1 = a then c.2 else Memory.read rest a

/-- The memory with no cell listed at `a`. -/
def Memory.erase (m : Memory) (a : Nat) : Memory := m.filter (fun c => c.1 != a)

/-- Lists a cell before the first one with a higher address. -/
def Memory.insert : Memory → Nat → Byte → Memory
  | [], a, v => [(a, v)]
  | c :: rest, a, v => if a < c.1 then (a, v) :: c :: rest else c :: Memory.insert rest a v

/-- The memory with `v` in the cell at `a`, again in the canonical form. -/
def Memory.write (m : Memory) (a : Nat) (v : Byte) : Memory :=
  if v = Memory.unlisted then m.erase a else (m.erase a).insert a v

/-! ### Registers, program counter, output, run state -/

/-- `x[i]` for an existing register (00_scope.md R10, 10_state.md R22). -/
def State.reg (s : State) (i : RegIndex) : Byte := s.regs[i]

/-- `x[i] <- v` for an existing register; no register is hardwired (10_state.md R22). -/
def State.setReg (s : State) (i : RegIndex) (v : Byte) : State := { s with regs := s.regs.set i v }

/-- `pc <- target` (00_scope.md R12). -/
def State.setPc (s : State) (target : Address) : State := { s with pc := target }

/-- `pc <- x[i]` or `pc <- M[a]`: a byte is a program counter value as it is (10_state.md R27, R28). -/
def State.jumpTo (s : State) (target : Byte) : State := s.setPc (target.setWidth 9)

/-- The controller's `PC <- PC + width` (40_fetch_decode_execute.md R105). A fetched instruction lies at 253 or below,
so the sum is at most 256 and does not wrap (10_state.md R28). -/
def State.advance (s : State) (width : Nat) : State := s.setPc (s.pc + BitVec.ofNat 9 width)

/-- `Emit(v)` (41_load_output.md R123): one event, after all earlier ones. -/
def State.emit (s : State) (v : Byte) : State := { s with out := s.out ++ [v] }

/-- `halt` (00_scope.md R12, 46_halt.md R180). -/
def State.halt (s : State) : State := { s with run := .halted }

/-! ### The stack pointer -/

/-- `sp`, which is `x[7]` and no register of its own (00_scope.md R10). -/
def State.sp (s : State) : Byte := s.reg Config.spIndex

/-- The address the stack pointer gives to the memory port. -/
def State.spAddr (s : State) : Address := s.sp.setWidth 9

/-- `x[7] <- (x[7] - 1) mod 256` (10_state.md R24). -/
def State.decSp (s : State) : State := s.setReg Config.spIndex (s.sp - 1#8)

/-- `x[7] <- (x[7] + 1) mod 256` (10_state.md R24). -/
def State.incSp (s : State) : State := s.setReg Config.spIndex (s.sp + 1#8)

/-! ### The memory port (20_memory.md R53) -/

/-- `MemRead(addr, 1)`: `none` when the address fails the range check. -/
def State.memRead (s : State) (addr : Address) : Option Byte :=
  if addr.toNat < Config.memSize then some (s.mem.read addr.toNat) else none

/-- The state with `v` in the cell at `addr`. -/
def State.store (s : State) (addr : Address) (v : Byte) : State := { s with mem := s.mem.write addr.toNat v }

/-- `MemWrite(addr, 1, v)`: `none` when the address fails the range check. -/
def State.memWrite (s : State) (addr : Address) (v : Byte) : Option State :=
  if addr.toNat < Config.memSize then some (s.store addr v) else none

/-! ### Fatal conditions (60_exceptions.md) -/

/-- The record of an UnknownInstruction (10_state.md R33, 60_exceptions.md R201). -/
def unknownInstructionRecord (s : State) (opcode : Byte) : FaultRecord where
  kind := .unknownInstruction
  pc := s.pc
  opcode := some opcode
  space := none
  addr := none
  operator := none

/-- The record of an AddressOutOfRange in memory (R33, R202); `opcode` is `none` when the op-code fetch failed (R101). -/
def memOutOfRangeRecord (s : State) (opcode : Option Byte) (addr : Address) : FaultRecord where
  kind := .addressOutOfRange
  pc := s.pc
  opcode := opcode
  space := some .mem
  addr := some addr
  operator := none

/-- The record of an AddressOutOfRange in the register file (R33, R202). -/
def regOutOfRangeRecord (s : State) (opcode : Byte) (index : Byte) : FaultRecord where
  kind := .addressOutOfRange
  pc := s.pc
  opcode := some opcode
  space := some .reg
  addr := some (index.setWidth 9)
  operator := none

/-- The record of an UnsupportedOperation (R33, R203). -/
def unsupportedOperationRecord (s : State) (opcode : Byte) (operator : AluOp) : FaultRecord where
  kind := .unsupportedOperation
  pc := s.pc
  opcode := some opcode
  space := none
  addr := none
  operator := some operator

/-- Fault entry (60_exceptions.md R204): the run state and the record are set, in the state before the instruction, and
nothing else happens (R205). There is no return from it (R208): only reset leaves TERMINATED. -/
def State.takeFault (s : State) (r : FaultRecord) : State := { s with run := .terminated, fault := some r }

/-- `raise` (00_scope.md R12): the step ends in fault entry. -/
def raise (s : State) (r : FaultRecord) : Result := .next (s.takeFault r)

/-- Goes on with the result of a memory-port access, or raises AddressOutOfRange in the state `s` before the
instruction when the access failed the range check (20_memory.md R53). -/
def onPort {α : Type} (s : State) (opcode : Byte) (addr : Address) (access : Option α) (k : α → Result) : Result :=
  match access with
  | some r => k r
  | none => raise s (memOutOfRangeRecord s (some opcode) addr)

end Sys2Proof.Machine
end

