-- ==== Sys2Proof/Machine/Operands.lean ====
section
/-! DEFINITION. The operand forms: a register index taken from an operand byte, with its check. LDI's immediate is the
operand byte as it is (30_encoding.md R75). -/

namespace Sys2Proof.Machine

/-- The register an operand byte names: the whole byte is the index, no bit is masked off (30_encoding.md R74). -/
def regIndex (b : Byte) : Option RegIndex :=
  if h : b.toNat < 8 then some ⟨b.toNat, h⟩ else none

/-- The register-index check of one operand byte (40_fetch_decode_execute.md R108): the handler goes on with the register,
or AddressOutOfRange is raised in the state before it. -/
def withReg (s : State) (opcode operand : Byte) (k : RegIndex → Result) : Result :=
  match regIndex operand with
  | some i => k i
  | none => raise s (regOutOfRangeRecord s opcode operand)

/-- The check of both operand bytes, `operand_a` first (R108). -/
def withRegs (s : State) (opcode operandA operandB : Byte) (k : RegIndex → RegIndex → Result) : Result :=
  withReg s opcode operandA fun a => withReg s opcode operandB fun b => k a b

end Sys2Proof.Machine
end

