-- ==== Sys2Proof/Machine/Alu.lean ====
section
/-! DEFINITION. The ALU and its two instructions: ADD, MUL (42_alu.md). -/

namespace Sys2Proof.Machine

/-- The model parameter `MUL_EMITS` (00_scope.md R6, 42_alu.md R134): whether MUL also delivers its product to the output
port. The value is the spec's default (log entry 3); it stands here, not in Config, so that it can be mended. -/
def mulEmits : Bool := Config.mulEmitsDefault

/-- What the ALU computes (R130), modulo 256; `none` for an operator it lacks. -/
def aluResult (op : AluOp) (x y : Byte) : Option Byte :=
  match op with
  | .add => some (x + y)
  | .mul => some (x * y)
  | .other _ => none

/-- `ALU(op, a, b)` (R130): both operands are read before `x[a]` is written; an operator it lacks raises
UnsupportedOperation (R131). -/
def alu (s : State) (opcode : Byte) (op : AluOp) (a b : RegIndex) (k : State → Result) : Result :=
  match aluResult op (s.reg a) (s.reg b) with
  | some v => k (s.setReg a v)
  | none => raise s (unsupportedOperationRecord s opcode op)

/-- `if MUL_EMITS: Emit(x[a])`, the value `x[a]` has now (R133, R134). -/
def State.emitIf (s : State) (emits : Bool) (a : RegIndex) : State := if emits then s.emit (s.reg a) else s

/-- ADD (R132). -/
def execAdd (ra rb : Byte) (s : State) : Result :=
  withRegs s (Instr.add ra rb).opcode ra rb fun a b =>
    alu s (Instr.add ra rb).opcode .add a b fun s' => .next (s'.advance 3)

/-- MUL (R133) under a value of `MUL_EMITS`: the value emitted is the new `x[a]`. -/
def mulWith (emits : Bool) (ra rb : Byte) (s : State) : Result :=
  withRegs s (Instr.mul ra rb).opcode ra rb fun a b =>
    alu s (Instr.mul ra rb).opcode .mul a b fun s' => .next ((s'.emitIf emits a).advance 3)

/-- MUL (R133). -/
def execMul (ra rb : Byte) (s : State) : Result := mulWith mulEmits ra rb s

end Sys2Proof.Machine
end

