-- ==== Sys2Proof/Machine/CallReturn.lean ====
section
/-! DEFINITION. Call and return: CALL, RET (44_call_return.md). Each sub-step reads the state the one before it left. -/

namespace Sys2Proof.Machine

/-- The return address `pc + 2` as the byte that CALL pushes: at most 255 for an instruction that was fetched
(20_memory.md R51; log entry 4). -/
def returnAddress (s : State) : Byte := (s.pc + 2#9).setWidth 8

/-- CALL (R150): decrement `x[7]`, store the return address there, then `pc <- x[operand_a]`, read after the decrement. -/
def execCall (ra : Byte) (s : State) : Result :=
  withReg s (Instr.call ra).opcode ra fun a =>
    onPort s (Instr.call ra).opcode s.decSp.spAddr (s.decSp.memWrite s.decSp.spAddr (returnAddress s)) fun s' =>
      .next (s'.jumpTo (s'.reg a))

/-- RET (R151): `pc <- MemRead(x[7], 1)`, then increment `x[7]`. -/
def execRet (s : State) : Result :=
  onPort s Instr.ret.opcode s.spAddr (s.memRead s.spAddr) fun v => .next (s.jumpTo v).incSp

end Sys2Proof.Machine
end

