-- ==== Sys2Proof/Machine/Flags.lean ====
section
/-! DEFINITION. The one flag (10_state.md R30): its computation and its writer. -/

namespace Sys2Proof.Machine

/-- The comparator (45_compare_branch.md R160): equality of the two bytes, no ordering. -/
def equalFlag (x y : Byte) : Bool := x == y

/-- `flag <- b` (00_scope.md R12). -/
def State.setFlag (s : State) (b : Bool) : State := { s with flag := b }

end Sys2Proof.Machine
end

