-- ==== Sys2Proof/Machine/CompareBranch.lean ====
section
/-! DEFINITION. Compare and jump: CMP, JMP, JEQ, JNE (45_compare_branch.md). -/

namespace Sys2Proof.Machine

/-- CMP (R160): the only writer of FLAG. -/
def execCmp (ra rb : Byte) (s : State) : Result :=
  withRegs s (Instr.cmp ra rb).opcode ra rb fun a b =>
    .next ((s.setFlag (equalFlag (s.reg a) (s.reg b))).advance 3)

/-- `pc <- x[operand_a]` when `taken`, with the index check that the access needs; `pc <- pc + 2`, with no access and no
check, otherwise (R161 to R163, 40_fetch_decode_execute.md R109). -/
def jumpIf (s : State) (opcode ra : Byte) (taken : Bool) : Result :=
  if taken then withReg s opcode ra fun a => .next (s.jumpTo (s.reg a)) else .next (s.advance 2)

/-- JMP (R161). -/
def execJmp (ra : Byte) (s : State) : Result := jumpIf s (Instr.jmp ra).opcode ra true

/-- JEQ (R162): taken when FLAG = 1. -/
def execJeq (ra : Byte) (s : State) : Result := jumpIf s (Instr.jeq ra).opcode ra s.flag

/-- JNE (R163): taken when FLAG = 0. -/
def execJne (ra : Byte) (s : State) : Result := jumpIf s (Instr.jne ra).opcode ra (!s.flag)

end Sys2Proof.Machine
end

