-- ==== Sys2Proof/Machine/Halt.lean ====
section
/-! DEFINITION. Halt: HLT (46_halt.md). -/

namespace Sys2Proof.Machine

/-- HLT (R180): `RUN <- HALTED`; everything else, `PC` included, stays. -/
def execHlt (s : State) : Result := .next s.halt

end Sys2Proof.Machine
end

