-- ==== Sys2Proof/Machine/LoadOutput.lean ====
section
/-! DEFINITION. Load-immediate and output: LDI, PRN (41_load_output.md). -/

namespace Sys2Proof.Machine

/-- LDI (R120): `x[operand_a] <- operand_b`. -/
def execLdi (ra imm8 : Byte) (s : State) : Result :=
  withReg s (Instr.ldi ra imm8).opcode ra fun a => .next ((s.setReg a imm8).advance 3)

/-- PRN (R121): `Emit(x[operand_a])`. -/
def execPrn (ra : Byte) (s : State) : Result :=
  withReg s (Instr.prn ra).opcode ra fun a => .next ((s.emit (s.reg a)).advance 2)

end Sys2Proof.Machine
end

