-- ==== Sys2Proof/Machine/Stack.lean ====
section
/-! DEFINITION. The stack: PUSH, POP (43_stack.md). Each sub-step reads the state the one before it left. -/

namespace Sys2Proof.Machine

/-- PUSH (R140): decrement `x[7]`, then store `x[operand_a]`, read after the decrement, at the new `x[7]`. -/
def execPush (ra : Byte) (s : State) : Result :=
  withReg s (Instr.push ra).opcode ra fun a =>
    onPort s (Instr.push ra).opcode s.decSp.spAddr (s.decSp.memWrite s.decSp.spAddr (s.decSp.reg a)) fun s' =>
      .next (s'.advance 2)

/-- POP (R141): load `x[operand_a]` from `x[7]`, then increment `x[7]`, read after the load. -/
def execPop (ra : Byte) (s : State) : Result :=
  withReg s (Instr.pop ra).opcode ra fun a =>
    onPort s (Instr.pop ra).opcode s.spAddr (s.memRead s.spAddr) fun v => .next ((s.setReg a v).incSp.advance 2)

end Sys2Proof.Machine
end

