-- ==== Sys2Proof/Machine/Fetch.lean ====
section
/-! DEFINITION. Fetch and decode (40_fetch_decode_execute.md R100 to R104), and what a stopped controller does (R106). -/

namespace Sys2Proof.Machine

/-- The three bytes a step latches; they do not survive it (10_state.md R21). -/
structure Latches where
  opcode : Byte
  operandA : Byte
  operandB : Byte
deriving DecidableEq, Repr

/-- The op-code fetch at `PC` (R101), then the two operand fetches, whatever the op-code (R102). The first one that fails
the range check gives the record (60_exceptions.md R207). -/
def fetch (s : State) : Except FaultRecord Latches :=
  match s.memRead s.pc with
  | none => .error (memOutOfRangeRecord s none s.pc)
  | some opcode =>
    match s.memRead (s.pc + 1#9) with
    | none => .error (memOutOfRangeRecord s (some opcode) (s.pc + 1#9))
    | some operandA =>
      match s.memRead (s.pc + 2#9) with
      | none => .error (memOutOfRangeRecord s (some opcode) (s.pc + 2#9))
      | some operandB => .ok ⟨opcode, operandA, operandB⟩

/-- The instruction at `PC`, or the record of the fatal condition that its fetch or its decoding raises (R104). -/
def fetchDecode (s : State) : Except FaultRecord Instr :=
  match fetch s with
  | .error r => .error r
  | .ok l =>
    match decode l.opcode l.operandA l.operandB with
    | .ok i => .ok i
    | .error _ => .error (unknownInstructionRecord s l.opcode)

/-- When `RUN` is HALTED or TERMINATED nothing is fetched and the state stays as it is (R106; log entry 2). -/
def idle (s : State) : Result := .next s

/-- The state with `v` in the cell at `addr`, or the state itself where no such cell exists. -/
def State.storeIfCell (s : State) (addr : Address) (v : Byte) : State := (s.memWrite addr v).getD s

/-- The state with three bytes stored where the next step fetches, at `PC`, `PC + 1` and `PC + 2`. -/
def storeAtPc (s : State) (b0 b1 b2 : Byte) : State :=
  ((s.storeIfCell s.pc b0).storeIfCell (s.pc + 1#9) b1).storeIfCell (s.pc + 2#9) b2

/-- The state in which the controller fetches at its next step: `RUN` is RUNNING, with no record (R100, R33). -/
def State.restart (s : State) : State := { s with run := .running, fault := none }

end Sys2Proof.Machine
end

