-- ==== Sys2Proof/Machine/Step.lean ====
section
/-! DEFINITION. The step (40_fetch_decode_execute.md R100). The program counter advances inside each handler (R105). -/

namespace Sys2Proof.Machine

/-- One step: one whole instruction, atomically (R100). -/
def step (s : State) : Host.Outcome State Fault Refusal :=
  match s.run with
  | .running =>
    match fetchDecode s with
    | .error r => raise s r
    | .ok i => exec i s
  | .halted => idle s
  | .terminated => idle s

/-- `s` with the instruction of a table word (its bits above `nbits` zero) stored where the next step fetches, and the
controller running. It stands for the host's load of a program (70_reset_and_hazards.md R231; log entry 8). An instruction
can be fetched at `PC` 0..253 only (R102): at any other `PC` the next step faults. -/
def State.withFetchWord (s : State) (nbits w : Nat) : State :=
  (storeAtPc s (tableByte nbits w 0) (tableByte nbits w 1) (tableByte nbits w 2)).restart

end Sys2Proof.Machine
end

