-- ==== Sys2Proof/Assembly.lean ====
section
/-! DEFINITION. Text forms outside the machine: the assembly spelling of an instruction (30_encoding.md R80) and the image
text that the Loader reads (R82). No step depends on them. -/

namespace Sys2Proof

/-- A number as decimal digits, no sign, no leading zeros. -/
def decimalText (n : Nat) : String := Nat.repr n

/-- The spelling of a register operand (R80). -/
def registerText (b : Byte) : String := "R" ++ decimalText b.toNat

/-- The assembly statement of an instruction (R80): `MNEM`, `MNEM Ra`, `MNEM Ra,Rb` or `LDI Ra,imm`. -/
def Instr.assembly : Instr → String
  | .ldi ra imm8 => "LDI " ++ registerText ra ++ "," ++ decimalText imm8.toNat
  | .prn ra => "PRN " ++ registerText ra
  | .add ra rb => "ADD " ++ registerText ra ++ "," ++ registerText rb
  | .mul ra rb => "MUL " ++ registerText ra ++ "," ++ registerText rb
  | .push ra => "PUSH " ++ registerText ra
  | .pop ra => "POP " ++ registerText ra
  | .call ra => "CALL " ++ registerText ra
  | .ret => "RET"
  | .cmp ra rb => "CMP " ++ registerText ra ++ "," ++ registerText rb
  | .jmp ra => "JMP " ++ registerText ra
  | .jeq ra => "JEQ " ++ registerText ra
  | .jne ra => "JNE " ++ registerText ra
  | .hlt => "HLT"

/-- White space around the text of an image line (log entry 11). -/
def isBlankChar (c : Char) : Bool := c == ' ' || c == '\t' || c == '\r'

/-- An image line without its comment and without the white space around the rest. -/
def stripLine (line : List Char) : List Char :=
  let body := (line.takeWhile (fun c => c != '#')).dropWhile isBlankChar
  (body.reverse.dropWhile isBlankChar).reverse

/-- The value of a string of `0` and `1`, leftmost most significant (00_scope.md R8); `none` for another character. -/
def binaryValue (digits : List Char) : Option Nat :=
  digits.foldlM (fun n c => if c = '0' then some (2 * n) else if c = '1' then some (2 * n + 1) else none) 0

/-- What one image line gives: nothing to load (`some none`), a byte, or `none` for a malformed line (log entry 11). -/
def imageLine (line : List Char) : Option (Option Byte) :=
  let text := stripLine line
  if text.isEmpty then some none
  else if text.length = 8 then (binaryValue text).map fun n => some (BitVec.ofNat 8 n)
  else none

/-- The image of a text (R82): the k-th surviving line is the byte at address k - 1; `none` for a malformed text. -/
def parseImage (lines : List (List Char)) : Option (List Byte) :=
  (lines.mapM imageLine).map fun bytes => bytes.filterMap id

end Sys2Proof
end

