-- ==== Sys2Proof/Machine/Interface.lean ====
section
/-! DEFINITION. The block's interface (40_fetch_decode_execute.md R110): reset, image load, status outputs, what the host may
read, and the transactions of the memory port. Nothing here is a step of the machine; the host acts between two steps only. -/

namespace Sys2Proof.Machine

/-! ### Reset and image load (70_reset_and_hazards.md) -/

/-- The `rst` input (R230): the whole state is set, memory included. -/
def hostReset (_ : State) : State := State.reset

/-- The memory with the bytes stored at ascending addresses from `a`. -/
def Memory.writeBytes : List Byte → Nat → Memory → Memory
  | [], _, m => m
  | b :: rest, a, m => Memory.writeBytes rest (a + 1) (m.write a b)

/-- The host's load of a program image from address 0 while the block is in reset (R231); `none` for an image with no
byte or with more than 256: the block is not started with it. -/
def loadImage (image : List Byte) (s : State) : Option State :=
  if 1 ≤ image.length ∧ image.length ≤ Config.memSize then some { s with mem := Memory.writeBytes image 0 s.mem } else none

/-- The state in which `rst` is released (R232), from any earlier state. -/
def boot (image : List Byte) (s : State) : Option State := loadImage image (hostReset s)

/-! ### Status outputs and host reads -/

/-- The 2-bit code of `run_state` (10_state.md R32). -/
def RunState.code : RunState → BitVec 2
  | .running => 0b00
  | .halted => 0b01
  | .terminated => 0b10

/-- The 2-bit code of a fault kind (10_state.md R33). -/
def FaultKind.code : FaultKind → BitVec 2
  | .unknownInstruction => 1
  | .addressOutOfRange => 2
  | .unsupportedOperation => 3

/-- The `kind` field of the `fault` output: 0 is NONE (10_state.md R33). -/
def State.faultCode (s : State) : BitVec 2 :=
  match s.fault with
  | none => 0
  | some r => r.kind.code

/-- The host's read of a memory cell: only when the run has ended (70_reset_and_hazards.md R234). -/
def hostReadMem (s : State) (addr : Address) : Option Byte :=
  match s.run with
  | .running => none
  | .halted => s.memRead addr
  | .terminated => s.memRead addr

/-- The host's read of a register: only when the run has ended (R234). -/
def hostReadReg (s : State) (i : RegIndex) : Option Byte :=
  match s.run with
  | .running => none
  | .halted => some (s.reg i)
  | .terminated => some (s.reg i)

/-! ### The memory port's transactions in a step -/

/-- One transaction of the memory port (R110): address 8 bits, data 8 bits. A read carries the byte the port returned, a
write the byte it was given. -/
inductive MemAccess where
  | read (addr data : Byte)
  | write (addr data : Byte)
deriving DecidableEq, Repr

/-- The read transactions of a list of addresses, up to the first that fails the range check: that address never appears
on the port, and the reads after it do not happen (R101, R102, R110). An address that passes fits the port's 8 bits. -/
def readAccesses (s : State) : List Address → List MemAccess
  | [] => []
  | addr :: rest =>
    match s.memRead addr with
    | some data => .read (addr.setWidth 8) data :: readAccesses s rest
    | none => []

/-- The write transaction of a stack address, if it passes the range check (20_memory.md R53). -/
def writeAccesses (s : State) (addr : Address) (data : Byte) : List MemAccess :=
  match s.memWrite addr data with
  | some _ => [.write (addr.setWidth 8) data]
  | none => []

/-- The transactions of a step's fetches, in order (R101, R102). -/
def fetchAccesses (s : State) : List MemAccess := readAccesses s [s.pc, s.pc + 1#9, s.pc + 2#9]

/-- The transactions of a handler, which has none when its register index is bad (R108): PUSH and CALL write below the
stack pointer, POP and RET read at it (20_memory.md R52). -/
def handlerAccesses (i : Instr) (s : State) : List MemAccess :=
  match i with
  | .push ra =>
    match regIndex ra with
    | some a => writeAccesses s s.decSp.spAddr (s.decSp.reg a)
    | none => []
  | .pop ra =>
    match regIndex ra with
    | some _ => readAccesses s [s.spAddr]
    | none => []
  | .call ra =>
    match regIndex ra with
    | some _ => writeAccesses s s.decSp.spAddr (returnAddress s)
    | none => []
  | .ret => readAccesses s [s.spAddr]
  | .ldi _ _ => []
  | .prn _ => []
  | .add _ _ => []
  | .mul _ _ => []
  | .cmp _ _ => []
  | .jmp _ => []
  | .jeq _ => []
  | .jne _ => []
  | .hlt => []

/-- The transactions of one step, in order (20_memory.md R52, 40_fetch_decode_execute.md R110, R111). -/
def portAccesses (s : State) : List MemAccess :=
  match s.run with
  | .running =>
    fetchAccesses s ++
      match fetchDecode s with
      | .error _ => []
      | .ok i => handlerAccesses i s
  | .halted => []
  | .terminated => []

/-- What a transaction does to the memory array. -/
def MemAccess.apply (s : State) : MemAccess → State
  | .read _ _ => s
  | .write addr data => s.store (addr.setWidth 9) data

end Sys2Proof.Machine
end

