-- ==== Sys2Proof/WellFormed.lean ====
section
/-! DEFINITION. Which instructions the assembly syntax of 30_encoding.md R80 can write: every register operand names one
of `R0` to `R7`. The machine decodes and runs the others too: they end in AddressOutOfRange (R74, R108). -/

namespace Sys2Proof

/-- An operand byte that names a register, 0..7 (30_encoding.md R74). -/
def isRegister (b : Byte) : Bool := decide (b.toNat < 8)

/-- Every register operand of the instruction names a register (R74, R80). -/
def Instr.wellFormed : Instr → Bool
  | .ldi ra _ => isRegister ra
  | .prn ra => isRegister ra
  | .add ra rb => isRegister ra && isRegister rb
  | .mul ra rb => isRegister ra && isRegister rb
  | .push ra => isRegister ra
  | .pop ra => isRegister ra
  | .call ra => isRegister ra
  | .ret => true
  | .cmp ra rb => isRegister ra && isRegister rb
  | .jmp ra => isRegister ra
  | .jeq ra => isRegister ra
  | .jne ra => isRegister ra
  | .hlt => true

/-- The instruction is one the assembly syntax can write (R80). -/
abbrev WellFormed (i : Instr) : Prop := i.wellFormed = true

end Sys2Proof
end

