-- ==== Sys2Proof/Safety.lean ====
section
/-! DEFINITION. The terms that claims are stated in: successful runs, the invariant of the machine, and frames. -/

namespace Sys2Proof.Machine

/-! ### Runs -/

/-- A run under fuel, with the number of steps it takes, the final HLT included (70_reset_and_hazards.md R239). HALTED is
the only successful end (46_halt.md R181); a run that ends TERMINATED, and one whose fuel runs out, have no result
(40_fetch_decode_execute.md R107). -/
def runToHalt : Nat → State → Option (State × Nat)
  | 0, s =>
    match s.run with
    | .halted => some (s, 0)
    | .running => none
    | .terminated => none
  | fuel + 1, s =>
    match s.run with
    | .halted => some (s, 0)
    | .terminated => none
    | .running =>
      match step s with
      | .next t => (runToHalt fuel t).map fun r => (r.1, r.2 + 1)
      | .fault _ => none
      | .refused _ => none

/-- The observed result of a successful run (70_reset_and_hazards.md R240). -/
def observed (s : State) : Memory × Vector Byte 8 × Address × Bool × List Byte := (s.mem, s.regs, s.pc, s.flag, s.out)

/-! ### The invariant -/

/-- The shape of the records that programs can leave (10_state.md R33, 20_memory.md R54, 42_alu.md R131). -/
def FaultRecord.Shape (r : FaultRecord) : Prop :=
  match r.kind with
  | .unknownInstruction => r.opcode.isSome ∧ r.space = none ∧ r.addr = none ∧ r.operator = none
  | .addressOutOfRange =>
    r.operator = none ∧
      ((r.space = some .mem ∧ r.addr = some 256#9 ∧ (r.opcode = none ↔ r.pc = 256#9)) ∨
        (r.space = some .reg ∧ r.opcode.isSome ∧ ∃ index : Byte, 8 ≤ index.toNat ∧ r.addr = some (index.setWidth 9)))
  | .unsupportedOperation => False

/-- What holds between two steps of every run. -/
structure State.Inv (s : State) : Prop where
  /-- the memory list is in its canonical form -/
  memWf : s.mem.wf
  /-- `PC` holds a value in 0..256 (10_state.md R26) -/
  pcLe : s.pc.toNat ≤ 256
  /-- `FAULT` is NONE while RUNNING or HALTED and a record when TERMINATED (10_state.md R33) -/
  faultIff : s.fault.isSome ↔ s.run = .terminated
  /-- the record has its kind's fields (10_state.md R33) and the `PC` of the faulting instruction, which `PC` keeps
  (60_exceptions.md R205) -/
  faultShape : ∀ r, s.fault = some r → r.Shape ∧ r.pc = s.pc

/-! ### What a step starts from -/

/-- The controller is RUNNING and the three bytes at `PC` are in range: they are `opcode`, `operandA`, `operandB`
(40_fetch_decode_execute.md R100 to R102). -/
structure State.Fetches (s : State) (opcode operandA operandB : Byte) : Prop where
  running : s.run = .running
  pcLe : s.pc.toNat ≤ 253
  opcodeAt : s.memRead s.pc = some opcode
  operandAAt : s.memRead (s.pc + 1#9) = some operandA
  operandBAt : s.memRead (s.pc + 2#9) = some operandB

/-- The operand bytes that the handler uses as register indices, and so checks, in order (40_fetch_decode_execute.md R108,
R109): JEQ and JNE only when the jump is taken. -/
def checkedIndices (i : Instr) (flag : Bool) : List Byte :=
  match i with
  | .ldi ra _ => [ra]
  | .prn ra => [ra]
  | .add ra rb => [ra, rb]
  | .mul ra rb => [ra, rb]
  | .push ra => [ra]
  | .pop ra => [ra]
  | .call ra => [ra]
  | .ret => []
  | .cmp ra rb => [ra, rb]
  | .jmp ra => [ra]
  | .jeq ra => if flag then [ra] else []
  | .jne ra => if flag then [] else [ra]
  | .hlt => []

/-- The first register index that names no register. -/
def firstBadIndex (i : Instr) (flag : Bool) : Option Byte :=
  (checkedIndices i flag).find? fun b => decide (8 ≤ b.toNat)

/-! ### Frames -/

/-- Every register outside `written` keeps its value. -/
def KeepsRegsBut (written : List RegIndex) (s t : State) : Prop := ∀ i, i ∉ written → t.reg i = s.reg i

/-- Every address of the port reads as before. -/
def KeepsMem (s t : State) : Prop := ∀ addr, t.memRead addr = s.memRead addr

/-- Every address of the port but `stored` reads as before. -/
def KeepsMemBut (stored : Address) (s t : State) : Prop := ∀ addr, addr ≠ stored → t.memRead addr = s.memRead addr

/-- The run state and the fault record are as before. -/
def KeepsRun (s t : State) : Prop := t.run = s.run ∧ t.fault = s.fault

/-- `t` is `s` after fault entry with the record `r` (60_exceptions.md R204): the run state and the record are set, and
no register, no cell, no flag, no output event and not `PC` is written (R205). -/
def FaultedWith (r : FaultRecord) (s t : State) : Prop :=
  t.run = .terminated ∧ t.fault = some r ∧ t.pc = s.pc ∧ t.flag = s.flag ∧ t.out = s.out ∧ KeepsRegsBut [] s t ∧ KeepsMem s t

/-! ### What a record reports -/

/-- The record reports an UnknownInstruction of the instruction at `s.pc` (60_exceptions.md R201). -/
def UnknownInstructionAt (s : State) (opcode : Byte) (r : FaultRecord) : Prop :=
  r.kind = .unknownInstruction ∧ r.pc = s.pc ∧ r.opcode = some opcode

/-- The record reports an AddressOutOfRange at a memory address (R202); `opcode` is `none` for an op-code fetch. -/
def MemOutOfRangeAt (s : State) (opcode : Option Byte) (addr : Nat) (r : FaultRecord) : Prop :=
  r.kind = .addressOutOfRange ∧ r.pc = s.pc ∧ r.opcode = opcode ∧ r.space = some .mem ∧
    r.addr.map BitVec.toNat = some addr

/-- The record reports an AddressOutOfRange at a register index (R202). -/
def RegOutOfRangeAt (s : State) (opcode index : Byte) (r : FaultRecord) : Prop :=
  r.kind = .addressOutOfRange ∧ r.pc = s.pc ∧ r.opcode = some opcode ∧ r.space = some .reg ∧
    r.addr.map BitVec.toNat = some index.toNat

end Sys2Proof.Machine
end

