-- ==== Sys2Proof/Certificates/Slice0/Obligations.lean ====
section
/-! DEFINITION. The statements about the machine, in the order of OBLIGATIONS.json. Addresses of cells are the nine-bit
addresses of the memory port; `ra.toNat < 8` says that an operand byte names a register (30_encoding.md R74). -/

open Sys2Proof Sys2Proof.Machine

/-! ### Encoding (30_encoding.md) -/

/-- Encoder and decoder agree on every instruction, with every value of every operand byte. An instruction decodes from its
encoding, whatever two bytes the controller latches after it; and bytes that decode to an instruction begin with its
encoding, so an encoding has one meaning and no bit of it is dropped (R72, R73, R76, R77, R83). -/
def Obligations.EncodingAndDecodingAgree : Prop :=
  (∀ (i : Instr) (p q : Byte) (rest : List Byte), decodeBytes (encode i ++ p :: q :: rest) = .ok i) ∧
  (∀ (bytes : List Byte) (i : Instr), decodeBytes bytes = .ok i → encode i <+: bytes ∧ 3 ≤ bytes.length)

/-- R78: the 243 illegal op-code values, as the rule lists them; executing one raises UnknownInstruction with the op-code
and `PC`; every other value decodes. -/
def Obligations.IllegalOpcodesRaiseUnknownInstruction : Prop :=
  ∀ opcode a b : Byte,
    let n := opcode.toNat
    let illegal := n = 0x00 ∨ (0x02 ≤ n ∧ n ≤ 0x10) ∨ (0x12 ≤ n ∧ n ≤ 0x44) ∨ (0x48 ≤ n ∧ n ≤ 0x4F) ∨
      (0x51 ≤ n ∧ n ≤ 0x53) ∨ (0x57 ≤ n ∧ n ≤ 0x81) ∨ (0x83 ≤ n ∧ n ≤ 0x9F) ∨ n = 0xA1 ∨ (0xA3 ≤ n ∧ n ≤ 0xA6) ∨
      (0xA8 ≤ n ∧ n ≤ 0xFF)
    (illegal → decode opcode a b = .error (.unknownInstruction opcode) ∧
      ∀ s : State, s.Fetches opcode a b →
        ∃ t r, step s = .next t ∧ FaultedWith r s t ∧ UnknownInstructionAt s opcode r) ∧
    (¬ illegal → ∃ i, decode opcode a b = .ok i ∧ i.opcode = opcode)

/-- R73: the four formats, byte by byte from the op-code's address, for the instructions of each. -/
def Obligations.FormatsPlaceTheOperandBytes : Prop :=
  ∀ ra rb imm8 x : Byte,
    (encode .ret = [0x11#8] ∧ decode 0x11#8 x rb = .ok .ret) ∧
    (encode .hlt = [0x01#8] ∧ decode 0x01#8 x rb = .ok .hlt) ∧
    (encode (.prn ra) = [0x47#8, ra] ∧ decode 0x47#8 ra x = .ok (.prn ra)) ∧
    (encode (.push ra) = [0x45#8, ra] ∧ decode 0x45#8 ra x = .ok (.push ra)) ∧
    (encode (.pop ra) = [0x46#8, ra] ∧ decode 0x46#8 ra x = .ok (.pop ra)) ∧
    (encode (.call ra) = [0x50#8, ra] ∧ decode 0x50#8 ra x = .ok (.call ra)) ∧
    (encode (.jmp ra) = [0x54#8, ra] ∧ decode 0x54#8 ra x = .ok (.jmp ra)) ∧
    (encode (.jeq ra) = [0x55#8, ra] ∧ decode 0x55#8 ra x = .ok (.jeq ra)) ∧
    (encode (.jne ra) = [0x56#8, ra] ∧ decode 0x56#8 ra x = .ok (.jne ra)) ∧
    (encode (.add ra rb) = [0xA0#8, ra, rb] ∧ decode 0xA0#8 ra rb = .ok (.add ra rb)) ∧
    (encode (.mul ra rb) = [0xA2#8, ra, rb] ∧ decode 0xA2#8 ra rb = .ok (.mul ra rb)) ∧
    (encode (.cmp ra rb) = [0xA7#8, ra, rb] ∧ decode 0xA7#8 ra rb = .ok (.cmp ra rb)) ∧
    (encode (.ldi ra imm8) = [0x82#8, ra, imm8] ∧ decode 0x82#8 ra imm8 = .ok (.ldi ra imm8))

/-- A few words written out from the binary column of R72, one of each family, read as the opcode table numbers bits. -/
def Obligations.SampleWordsDecode : Prop :=
  decodeTableWord 24 0b00001000_00000000_10000010 = some (.ldi 0 8) ∧
  decodeTableWord 16 0b00000111_01000111 = some (.prn 7) ∧
  decodeTableWord 24 0b00000001_00000000_10100010 = some (.mul 0 1) ∧
  decodeTableWord 16 0b00000011_01000101 = some (.push 3) ∧
  decodeTableWord 8 0b00010001 = some .ret ∧
  decodeTableWord 16 0b00000010_01010110 = some (.jne 2) ∧
  decodeTableWord 8 0b00000001 = some .hlt ∧
  decodeTableWord 8 0b11111111 = none

/-- The width of an instruction is what the two most significant bits of its op-code say, plus one (R71; that bit 7 is the
leftmost is decision D21). -/
def Obligations.OpcodeTopBitsGiveTheWidth : Prop :=
  ∀ (opcode a b : Byte) (i : Instr), decode opcode a b = .ok i →
    (encode i).length = (opcode.extractLsb' 6 2).toNat + 1

/-- An operand byte outside the instruction's width changes nothing: not the instruction decoded, and so nothing the step
does (R76, which the spec derives from R73 and R108). -/
def Obligations.BytesPastTheWidthAreIgnored : Prop :=
  ∀ (opcode a b : Byte) (i : Instr), decode opcode a b = .ok i →
    ((encode i).length ≤ 2 → ∀ b', decode opcode a b' = .ok i) ∧
    ((encode i).length ≤ 1 → ∀ a' b', decode opcode a' b' = .ok i)

/-! ### The step (40_fetch_decode_execute.md) -/

/-- R103: the step of a running controller with its three bytes in range is the handler of the instruction they decode
to. -/
def Obligations.StepRunsTheDecodedInstruction : Prop :=
  ∀ (s : State) (opcode a b : Byte) (i : Instr), s.Fetches opcode a b → decode opcode a b = .ok i → step s = exec i s

/-- R101: the op-code is the cell at `PC`; above 255 the fetch raises AddressOutOfRange with `addr = PC` and no op-code;
256 is the only such `PC` that the invariant allows. -/
def Obligations.OpcodeFetchReadsPcOrRaises : Prop :=
  (∀ (s : State) (l : Latches), fetch s = .ok l → s.memRead s.pc = some l.opcode) ∧
  (∀ s : State, s.run = .running → 255 < s.pc.toNat →
    ∃ t r, step s = .next t ∧ FaultedWith r s t ∧ MemOutOfRangeAt s none s.pc.toNat r) ∧
  (∀ s : State, s.Inv → 255 < s.pc.toNat → s.pc = 256#9)

/-- An instruction at 254 or 255, of any op-code and any width, raises AddressOutOfRange at 256 with its op-code recorded,
before it is decoded (R102; that both operand fetches happen for every op-code is the spec's decision D8). -/
def Obligations.LookaheadFaultsAtTheEndOfMemory : Prop :=
  ∀ (s : State) (opcode : Byte), s.run = .running → (s.pc = 254#9 ∨ s.pc = 255#9) → s.memRead s.pc = some opcode →
    ∃ t r, step s = .next t ∧ FaultedWith r s t ∧ MemOutOfRangeAt s (some opcode) 256 r

/-- A stopped machine stays as it is for any number of steps (R106, R208; that its step answers the same state is the
model's choice, log entry 2). -/
def Obligations.StoppedMachineNeverChanges : Prop :=
  ∀ (n : Nat) (s : State), s.run ≠ .running → Host.Core.run Sys2Proof.core n s = .next s

/-- From every state a step answers a next state: no fault of the model and no refusal (log entry 1). -/
def Obligations.EveryStateHasANextState : Prop :=
  ∀ s : State, ∃ t, step s = .next t

/-- Where `PC` goes (R105, R27). A fault leaves it, whatever raised it; after the step of a fetched instruction it is where
the op-code says, and the sum never passes 256 (R28, which the spec derives). CALL's target is the register as the step
leaves it: for CALL R7 that is the decremented stack pointer, the spec's decision D5 (log entry 13). That `PC` keeps the
address of a HLT is decision D13 (log entry 15). -/
def Obligations.PcAfterAStep : Prop :=
  (∀ s t : State, s.run = .running → step s = .next t → t.run = .terminated → t.pc = s.pc) ∧
  ∀ (s t : State) (opcode a b : Byte), s.Fetches opcode a b → step s = .next t →
    t.pc.toNat ≤ 256 ∧
    (opcode = 0x01#8 → t.pc = s.pc) ∧
    (t.run = .running →
      (opcode ∈ [0x82#8, 0xA0#8, 0xA2#8, 0xA7#8] → t.pc.toNat = s.pc.toNat + 3) ∧
      (opcode ∈ [0x47#8, 0x45#8, 0x46#8] → t.pc.toNat = s.pc.toNat + 2) ∧
      ((opcode = 0x55#8 ∧ s.flag = false) ∨ (opcode = 0x56#8 ∧ s.flag = true) → t.pc.toNat = s.pc.toNat + 2) ∧
      (opcode ∈ [0x50#8, 0x54#8] ∨ (opcode = 0x55#8 ∧ s.flag = true) ∨ (opcode = 0x56#8 ∧ s.flag = false) →
        ∃ h : a.toNat < 8, t.pc = (t.reg ⟨a.toNat, h⟩).setWidth 9) ∧
      (opcode = 0x11#8 → ∃ v : Byte, s.memRead s.spAddr = some v ∧ t.pc = v.setWidth 9))

/-! ### Fatal conditions (60_exceptions.md) -/

/-- A handler that uses a byte 8..255 as a register index raises AddressOutOfRange for the first one, `operand_a` before
`operand_b`, and writes nothing; a handler that uses none goes on (R108, R109; that only accessed indices are checked, and
before any write, are the spec's decisions D6 and D7). -/
def Obligations.FirstBadRegisterIndexIsRaised : Prop :=
  ∀ (i : Instr) (s : State),
    (∀ index, firstBadIndex i s.flag = some index →
      8 ≤ index.toNat ∧ ∃ t r, exec i s = .next t ∧ FaultedWith r s t ∧ RegOutOfRangeAt s i.opcode index r) ∧
    (firstBadIndex i s.flag = none →
      ∃ t, exec i s = .next t ∧ t.fault = s.fault ∧ t.run = (if i = .hlt then .halted else s.run))

/-- R204: fault entry sets `RUN` and `FAULT`, with the fields of one of the conditions, and does nothing else. -/
def Obligations.FaultEntryDoesNothingElse : Prop :=
  ∀ s t : State, s.run = .running → step s = .next t → t.run = .terminated →
    ∃ r, FaultedWith r s t ∧
      ((∃ opcode, UnknownInstructionAt s opcode r) ∨ (∃ opcode addr, MemOutOfRangeAt s opcode addr r) ∨
        (∃ opcode index, RegOutOfRangeAt s opcode index r))

/-- Exactly when the step of a running controller ends TERMINATED: a fetch out of range, an op-code that is none of the
thirteen, or a register index 8..255 that the handler uses (R200, R207, R109; decisions D7 to D9). -/
def Obligations.StepTerminatesExactlyOnAFatalCondition : Prop :=
  ∀ s : State, s.run = .running →
    ∃ t, step s = .next t ∧
      (t.run = .terminated ↔
        254 ≤ s.pc.toNat ∨
        (∃ opcode a b, s.Fetches opcode a b ∧
          opcode.toNat ∉ [0x82, 0x47, 0xA0, 0xA2, 0x45, 0x46, 0x50, 0x11, 0xA7, 0x54, 0x55, 0x56, 0x01]) ∨
        (∃ opcode a b i, s.Fetches opcode a b ∧ decode opcode a b = .ok i ∧ (firstBadIndex i s.flag).isSome))

/-- No step raises UnsupportedOperation (R131, which the spec derives; R203). -/
def Obligations.UnsupportedOperationIsNeverRaised : Prop :=
  ∀ (s t : State) (r : FaultRecord), s.run = .running → step s = .next t → t.run = .terminated → t.fault = some r →
    r.kind ≠ .unsupportedOperation

/-- The ALU asked for any other operator raises UnsupportedOperation, reports the operator, and writes nothing (R130,
R131; decision D20). -/
def Obligations.AluRejectsOtherOperators : Prop :=
  ∀ (s : State) (opcode : Byte) (name : String) (a b : RegIndex) (k : State → Result),
    ∃ t r, alu s opcode (.other name) a b k = .next t ∧ FaultedWith r s t ∧
      r.kind = .unsupportedOperation ∧ r.pc = s.pc ∧ r.opcode = some opcode ∧ r.operator = some (.other name)

/-- An instruction that the assembly syntax can write never ends in a fatal condition of its own (R80, R109). -/
def Obligations.WellFormedInstructionsDoNotFault : Prop :=
  ∀ (i : Instr) (s : State), WellFormed i → s.run = .running →
    ∃ t, exec i s = .next t ∧ t.run ≠ .terminated ∧ t.fault = s.fault

/-! ### Load-immediate and output (41_load_output.md) -/

/-- R120: LDI. -/
def Obligations.LdiWritesTheImmediate : Prop :=
  ∀ (s : State) (ra imm8 : Byte),
    decode 0x82#8 ra imm8 = .ok (.ldi ra imm8) ∧ (encode (.ldi ra imm8)).length = 3 ∧
    (∀ h : ra.toNat < 8, ∃ t, exec (.ldi ra imm8) s = .next t ∧
      t.reg ⟨ra.toNat, h⟩ = imm8 ∧ KeepsRegsBut [⟨ra.toNat, h⟩] s t ∧ t.pc = s.pc + 3#9 ∧
      t.flag = s.flag ∧ KeepsMem s t ∧ t.out = s.out ∧ KeepsRun s t) ∧
    (8 ≤ ra.toNat → ∃ t r, exec (.ldi ra imm8) s = .next t ∧ FaultedWith r s t ∧ RegOutOfRangeAt s 0x82#8 ra r)

/-- R121: PRN. -/
def Obligations.PrnEmitsTheRegister : Prop :=
  ∀ (s : State) (ra x : Byte),
    decode 0x47#8 ra x = .ok (.prn ra) ∧ (encode (.prn ra)).length = 2 ∧
    (∀ h : ra.toNat < 8, ∃ t, exec (.prn ra) s = .next t ∧
      t.out = s.out ++ [s.reg ⟨ra.toNat, h⟩] ∧ KeepsRegsBut [] s t ∧ t.pc = s.pc + 2#9 ∧
      t.flag = s.flag ∧ KeepsMem s t ∧ KeepsRun s t) ∧
    (8 ≤ ra.toNat → ∃ t r, exec (.prn ra) s = .next t ∧ FaultedWith r s t ∧ RegOutOfRangeAt s 0x47#8 ra r)

/-- A step adds at most one event to the output: PRN's, or MUL's when `MUL_EMITS` is true; no other op-code emits (R123,
R134; decisions D11 and D12). -/
def Obligations.OnlyPrnAndMulEmit : Prop :=
  ∀ s t : State, step s = .next t →
    t.out = s.out ∨
    ∃ a b v, t.out = s.out ++ [v] ∧ (s.Fetches 0x47#8 a b ∨ (mulEmits = true ∧ s.Fetches 0xA2#8 a b))

/-- An event once emitted stays in the output whatever later happens in the run, a halt or a fault included (R123;
decision D12; that a run goes on after its end with the same state is log entry 2). -/
def Obligations.EmittedEventsAreNeverTakenBack : Prop :=
  ∀ (n : Nat) (s t : State), Host.Core.run Sys2Proof.core n s = .next t → s.out <+: t.out

/-! ### The ALU (42_alu.md) -/

/-- R132: ADD. -/
def Obligations.AddIsModulo256 : Prop :=
  ∀ (s : State) (ra rb : Byte),
    decode 0xA0#8 ra rb = .ok (.add ra rb) ∧ (encode (.add ra rb)).length = 3 ∧
    (∀ (ha : ra.toNat < 8) (hb : rb.toNat < 8), ∃ t, exec (.add ra rb) s = .next t ∧
      (t.reg ⟨ra.toNat, ha⟩).toNat = ((s.reg ⟨ra.toNat, ha⟩).toNat + (s.reg ⟨rb.toNat, hb⟩).toNat) % 256 ∧
      KeepsRegsBut [⟨ra.toNat, ha⟩] s t ∧ t.pc = s.pc + 3#9 ∧
      t.flag = s.flag ∧ KeepsMem s t ∧ t.out = s.out ∧ KeepsRun s t) ∧
    (8 ≤ ra.toNat → ∃ t r, exec (.add ra rb) s = .next t ∧ FaultedWith r s t ∧ RegOutOfRangeAt s 0xA0#8 ra r) ∧
    (ra.toNat < 8 → 8 ≤ rb.toNat →
      ∃ t r, exec (.add ra rb) s = .next t ∧ FaultedWith r s t ∧ RegOutOfRangeAt s 0xA0#8 rb r)

/-- R133: MUL, for the value of `MUL_EMITS` that the machine uses. -/
def Obligations.MulIsModulo256 : Prop :=
  ∀ (s : State) (ra rb : Byte),
    decode 0xA2#8 ra rb = .ok (.mul ra rb) ∧ (encode (.mul ra rb)).length = 3 ∧
    (∀ (ha : ra.toNat < 8) (hb : rb.toNat < 8), ∃ t, exec (.mul ra rb) s = .next t ∧
      (t.reg ⟨ra.toNat, ha⟩).toNat = ((s.reg ⟨ra.toNat, ha⟩).toNat * (s.reg ⟨rb.toNat, hb⟩).toNat) % 256 ∧
      KeepsRegsBut [⟨ra.toNat, ha⟩] s t ∧ t.pc = s.pc + 3#9 ∧
      t.out = s.out ++ (if mulEmits then [t.reg ⟨ra.toNat, ha⟩] else []) ∧
      t.flag = s.flag ∧ KeepsMem s t ∧ KeepsRun s t) ∧
    (8 ≤ ra.toNat → ∃ t r, exec (.mul ra rb) s = .next t ∧ FaultedWith r s t ∧ RegOutOfRangeAt s 0xA2#8 ra r) ∧
    (ra.toNat < 8 → 8 ≤ rb.toNat →
      ∃ t r, exec (.mul ra rb) s = .next t ∧ FaultedWith r s t ∧ RegOutOfRangeAt s 0xA2#8 rb r)

/-- MUL under each value of `MUL_EMITS`: the two differ in the output only; true emits the new `x[a]`, false emits nothing
(R134; decision D11). -/
def Obligations.MulEmitsOnlyUnderItsParameter : Prop :=
  ∀ (s : State) (ra rb : Byte) (ha : ra.toNat < 8), rb.toNat < 8 →
    ∃ t u, mulWith false ra rb s = .next t ∧ mulWith true ra rb s = .next u ∧
      t.out = s.out ∧ u.out = s.out ++ [u.reg ⟨ra.toNat, ha⟩] ∧ u = { t with out := u.out }

/-! ### The stack (43_stack.md) -/

/-- PUSH: decrement, then store the register, read after the decrement, at the new `x[7]`; PUSH R7 stores the decremented
value; the cell stored to is the one the meaning computes (R140; decisions D4 and D5). -/
def Obligations.PushStoresBelowTheStackPointer : Prop :=
  ∀ (s : State) (ra x : Byte),
    decode 0x45#8 ra x = .ok (.push ra) ∧ (encode (.push ra)).length = 2 ∧
    s.decSp.spAddr = (s.reg 7 - 1#8).setWidth 9 ∧
    (∀ h : ra.toNat < 8, ∃ t, exec (.push ra) s = .next t ∧
      (t.reg 7).toNat = ((s.reg 7).toNat + 255) % 256 ∧ KeepsRegsBut [7] s t ∧
      t.memRead s.decSp.spAddr = some (if ra.toNat = 7 then s.reg 7 - 1#8 else s.reg ⟨ra.toNat, h⟩) ∧
      KeepsMemBut s.decSp.spAddr s t ∧ t.pc = s.pc + 2#9 ∧ t.flag = s.flag ∧ t.out = s.out ∧ KeepsRun s t) ∧
    (8 ≤ ra.toNat → ∃ t r, exec (.push ra) s = .next t ∧ FaultedWith r s t ∧ RegOutOfRangeAt s 0x45#8 ra r)

/-- POP: load the register from the cell at `x[7]`, then increment `x[7]`, read after the load; POP R7 leaves the loaded
value plus one; no cell changes (R141; decisions D4 and D5). -/
def Obligations.PopLoadsFromTheStackPointer : Prop :=
  ∀ (s : State) (ra x : Byte),
    decode 0x46#8 ra x = .ok (.pop ra) ∧ (encode (.pop ra)).length = 2 ∧
    (∀ h : ra.toNat < 8, ∃ v t, s.memRead ((s.reg 7).setWidth 9) = some v ∧ exec (.pop ra) s = .next t ∧
      (ra.toNat ≠ 7 → t.reg ⟨ra.toNat, h⟩ = v ∧ (t.reg 7).toNat = ((s.reg 7).toNat + 1) % 256) ∧
      (ra.toNat = 7 → (t.reg 7).toNat = (v.toNat + 1) % 256) ∧
      KeepsRegsBut [⟨ra.toNat, h⟩, 7] s t ∧ KeepsMem s t ∧ t.pc = s.pc + 2#9 ∧ t.flag = s.flag ∧ t.out = s.out ∧
      KeepsRun s t) ∧
    (8 ≤ ra.toNat → ∃ t r, exec (.pop ra) s = .next t ∧ FaultedWith r s t ∧ RegOutOfRangeAt s 0x46#8 ra r)

/-- PUSH and then POP of the same register, with `x[7]` and the pushed cell unwritten between them, restores the register
and the stack pointer, for all eight registers, `x[7]` included (R142, which the spec derives). -/
def Obligations.PushThenPopRestores : Prop :=
  ∀ (s : State) (ra : Byte) (h : ra.toNat < 8), ∃ t, exec (.push ra) s = .next t ∧
    ∀ t' : State, t'.reg 7 = t.reg 7 → t'.memRead t.spAddr = t.memRead t.spAddr →
      ∃ u, exec (.pop ra) t' = .next u ∧ u.reg ⟨ra.toNat, h⟩ = s.reg ⟨ra.toNat, h⟩ ∧ u.reg 7 = s.reg 7 ∧
        u.memRead t.spAddr = t.memRead t.spAddr

/-- The byte a PUSH stores where the program counter then stands is the op-code that the next fetch latches (R64; that
self-modifying code takes effect at once is decision D19). -/
def Obligations.PushedByteIsFetchedNext : Prop :=
  ∀ (s : State) (ra : Byte) (h : ra.toNat < 8), ∃ t, exec (.push ra) s = .next t ∧
    (t.pc = s.decSp.spAddr → t.pc.toNat ≤ 253 → ∃ l, fetch t = .ok l ∧ l.opcode = s.decSp.reg ⟨ra.toNat, h⟩)

/-! ### Call and return (44_call_return.md) -/

/-- CALL: decrement, store the return address `pc + 2` there, jump to the register, read after the decrement; CALL R7 jumps
to the decremented stack pointer (R150; decisions D4 and D5). -/
def Obligations.CallPushesTheReturnAddress : Prop :=
  ∀ (s : State) (ra x : Byte),
    decode 0x50#8 ra x = .ok (.call ra) ∧ (encode (.call ra)).length = 2 ∧
    s.decSp.spAddr = (s.reg 7 - 1#8).setWidth 9 ∧
    (∀ h : ra.toNat < 8, ∃ t, exec (.call ra) s = .next t ∧
      (t.reg 7).toNat = ((s.reg 7).toNat + 255) % 256 ∧ KeepsRegsBut [7] s t ∧
      (∃ ret : Byte, t.memRead s.decSp.spAddr = some ret ∧ (s.pc.toNat ≤ 253 → ret.toNat = s.pc.toNat + 2)) ∧
      KeepsMemBut s.decSp.spAddr s t ∧
      t.pc = (if ra.toNat = 7 then s.reg 7 - 1#8 else s.reg ⟨ra.toNat, h⟩).setWidth 9 ∧
      t.flag = s.flag ∧ t.out = s.out ∧ KeepsRun s t) ∧
    (8 ≤ ra.toNat → ∃ t r, exec (.call ra) s = .next t ∧ FaultedWith r s t ∧ RegOutOfRangeAt s 0x50#8 ra r)

/-- R151: RET. -/
def Obligations.RetPopsTheProgramCounter : Prop :=
  ∀ (s : State) (x y : Byte),
    decode 0x11#8 x y = .ok .ret ∧ (encode .ret).length = 1 ∧
    ∃ v t, s.memRead ((s.reg 7).setWidth 9) = some v ∧ exec .ret s = .next t ∧
      t.pc = v.setWidth 9 ∧ (t.reg 7).toNat = ((s.reg 7).toNat + 1) % 256 ∧ KeepsRegsBut [7] s t ∧
      KeepsMem s t ∧ t.flag = s.flag ∧ t.out = s.out ∧ KeepsRun s t

/-- A CALL and then a RET, with `x[7]` and the return-address cell unwritten between them, returns to the CALL's address
plus two, with `x[7]` as before (R152, which the spec derives). -/
def Obligations.CallThenRetReturns : Prop :=
  ∀ (s : State) (ra : Byte), ra.toNat < 8 → s.pc.toNat ≤ 253 → ∃ t, exec (.call ra) s = .next t ∧
    ∀ t' : State, t'.reg 7 = t.reg 7 → t'.memRead t.spAddr = t.memRead t.spAddr →
      ∃ u, exec .ret t' = .next u ∧ u.pc.toNat = s.pc.toNat + 2 ∧ u.reg 7 = s.reg 7

/-! ### Compare and jump (45_compare_branch.md) -/

/-- R160: CMP. -/
def Obligations.CmpSetsTheFlagOnEquality : Prop :=
  ∀ (s : State) (ra rb : Byte),
    decode 0xA7#8 ra rb = .ok (.cmp ra rb) ∧ (encode (.cmp ra rb)).length = 3 ∧
    (∀ (ha : ra.toNat < 8) (hb : rb.toNat < 8), ∃ t, exec (.cmp ra rb) s = .next t ∧
      (t.flag = true ↔ s.reg ⟨ra.toNat, ha⟩ = s.reg ⟨rb.toNat, hb⟩) ∧ t.pc = s.pc + 3#9 ∧
      KeepsRegsBut [] s t ∧ KeepsMem s t ∧ t.out = s.out ∧ KeepsRun s t) ∧
    (8 ≤ ra.toNat → ∃ t r, exec (.cmp ra rb) s = .next t ∧ FaultedWith r s t ∧ RegOutOfRangeAt s 0xA7#8 ra r) ∧
    (ra.toNat < 8 → 8 ≤ rb.toNat →
      ∃ t r, exec (.cmp ra rb) s = .next t ∧ FaultedWith r s t ∧ RegOutOfRangeAt s 0xA7#8 rb r) ∧
    (∀ s' t : State, step s' = .next t → t.flag = s'.flag ∨ ∃ a b, s'.Fetches 0xA7#8 a b)

/-- R161: JMP. -/
def Obligations.JmpGoesToTheRegister : Prop :=
  ∀ (s : State) (ra x : Byte),
    decode 0x54#8 ra x = .ok (.jmp ra) ∧ (encode (.jmp ra)).length = 2 ∧
    (∀ h : ra.toNat < 8, ∃ t, exec (.jmp ra) s = .next t ∧ t.pc = (s.reg ⟨ra.toNat, h⟩).setWidth 9 ∧
      t.flag = s.flag ∧ KeepsRegsBut [] s t ∧ KeepsMem s t ∧ t.out = s.out ∧ KeepsRun s t) ∧
    (8 ≤ ra.toNat → ∃ t r, exec (.jmp ra) s = .next t ∧ FaultedWith r s t ∧ RegOutOfRangeAt s 0x54#8 ra r)

/-- JEQ: with FLAG = 1 it goes to the register, or raises for an index 8..255; with FLAG = 0 it goes on to `pc + 2` whatever
the operand byte (R162; that the index is not checked then is decision D7). -/
def Obligations.JeqJumpsWhenTheFlagIsSet : Prop :=
  ∀ (s : State) (ra x : Byte),
    decode 0x55#8 ra x = .ok (.jeq ra) ∧ (encode (.jeq ra)).length = 2 ∧
    (s.flag = true → ∀ h : ra.toNat < 8, ∃ t, exec (.jeq ra) s = .next t ∧
      t.pc = (s.reg ⟨ra.toNat, h⟩).setWidth 9 ∧
      t.flag = s.flag ∧ KeepsRegsBut [] s t ∧ KeepsMem s t ∧ t.out = s.out ∧ KeepsRun s t) ∧
    (s.flag = true → 8 ≤ ra.toNat →
      ∃ t r, exec (.jeq ra) s = .next t ∧ FaultedWith r s t ∧ RegOutOfRangeAt s 0x55#8 ra r) ∧
    (s.flag = false → ∃ t, exec (.jeq ra) s = .next t ∧ t.pc = s.pc + 2#9 ∧
      t.flag = s.flag ∧ KeepsRegsBut [] s t ∧ KeepsMem s t ∧ t.out = s.out ∧ KeepsRun s t)

/-- JNE: with FLAG = 0 it goes to the register, or raises for an index 8..255; with FLAG = 1 it goes on to `pc + 2` whatever
the operand byte (R163; that the index is not checked then is decision D7). -/
def Obligations.JneJumpsWhenTheFlagIsClear : Prop :=
  ∀ (s : State) (ra x : Byte),
    decode 0x56#8 ra x = .ok (.jne ra) ∧ (encode (.jne ra)).length = 2 ∧
    (s.flag = false → ∀ h : ra.toNat < 8, ∃ t, exec (.jne ra) s = .next t ∧
      t.pc = (s.reg ⟨ra.toNat, h⟩).setWidth 9 ∧
      t.flag = s.flag ∧ KeepsRegsBut [] s t ∧ KeepsMem s t ∧ t.out = s.out ∧ KeepsRun s t) ∧
    (s.flag = false → 8 ≤ ra.toNat →
      ∃ t r, exec (.jne ra) s = .next t ∧ FaultedWith r s t ∧ RegOutOfRangeAt s 0x56#8 ra r) ∧
    (s.flag = true → ∃ t, exec (.jne ra) s = .next t ∧ t.pc = s.pc + 2#9 ∧
      t.flag = s.flag ∧ KeepsRegsBut [] s t ∧ KeepsMem s t ∧ t.out = s.out ∧ KeepsRun s t)

/-- R30: CMP alone writes FLAG, with the equality of its two registers; JEQ and JNE read it, since FLAG alone decides where
they go; no other instruction reads it: a different FLAG beforehand changes nothing else afterwards. -/
def Obligations.OnlyCmpWritesAndOnlyJumpsReadTheFlag : Prop :=
  (∀ s t : State, step s = .next t → t.flag ≠ s.flag → ∃ a b, s.Fetches 0xA7#8 a b) ∧
  (∀ (s : State) (ra rb : Byte) (ha : ra.toNat < 8) (hb : rb.toNat < 8), ∃ t, exec (.cmp ra rb) s = .next t ∧
    (t.flag = true ↔ s.reg ⟨ra.toNat, ha⟩ = s.reg ⟨rb.toNat, hb⟩)) ∧
  (∀ (s : State) (ra : Byte) (h : ra.toNat < 8) (b : Bool),
    (∃ t, exec (.jeq ra) { s with flag := b } = .next t ∧
      t.pc = (if b then (s.reg ⟨ra.toNat, h⟩).setWidth 9 else s.pc + 2#9)) ∧
    (∃ t, exec (.jne ra) { s with flag := b } = .next t ∧
      t.pc = (if b then s.pc + 2#9 else (s.reg ⟨ra.toNat, h⟩).setWidth 9))) ∧
  (∀ (i : Instr) (s : State) (b : Bool), (∀ ra, i ≠ .jeq ra ∧ i ≠ .jne ra) →
    ∃ t u, exec i s = .next t ∧ exec i { s with flag := b } = .next u ∧ { u with flag := t.flag } = t)

/-! ### Halt (46_halt.md) -/

/-- HLT: `RUN` is HALTED and everything else stays (R180; that `PC` keeps the address of the HLT is decision D13). -/
def Obligations.HltHaltsAndKeepsEverything : Prop :=
  ∀ (s : State) (x y : Byte),
    decode 0x01#8 x y = .ok .hlt ∧ (encode .hlt).length = 1 ∧
    ∃ t, exec .hlt s = .next t ∧ t.run = .halted ∧ t.fault = s.fault ∧ t.pc = s.pc ∧ t.flag = s.flag ∧
      t.out = s.out ∧ KeepsRegsBut [] s t ∧ KeepsMem s t

/-- HALTED is entered by HLT alone, with all other state surviving (R180, R181, R215). -/
def Obligations.OnlyHltEntersHalted : Prop :=
  ∀ s t : State, s.run = .running → step s = .next t → t.run = .halted →
    (∃ a b, s.Fetches 0x01#8 a b) ∧ t = { s with run := .halted }

/-- A successful run does not depend on its fuel: more fuel gives the same final state after the same number of steps, at
most the fuel, and that state is HALTED (R107, R181, R239; decision D16). The machine's own run of that many steps or more
answers it too: past the final HLT that rests on the model's choice that a stopped step answers the same state (log entry
2). -/
def Obligations.HaltedRunsDoNotDependOnFuel : Prop :=
  ∀ (n m k : Nat) (s t : State), runToHalt n s = some (t, k) → n ≤ m →
    runToHalt m s = some (t, k) ∧ k ≤ n ∧ t.run = .halted ∧ Host.Core.run Sys2Proof.core m s = .next t

/-! ### State and memory as a whole (10_state.md, 20_memory.md) -/

/-- R53: the range check of the memory port, on a read and on a write, and what a failed access raises. -/
def Obligations.MemoryPortChecksTheRange : Prop :=
  ∀ (s : State) (addr : Address) (v opcode : Byte),
    (255 < addr.toNat → s.memRead addr = none ∧ s.memWrite addr v = none ∧
      (∀ k : Byte → Result, ∃ t r, onPort s opcode addr (s.memRead addr) k = .next t ∧ FaultedWith r s t ∧
        MemOutOfRangeAt s (some opcode) addr.toNat r) ∧
      (∀ k : State → Result, ∃ t r, onPort s opcode addr (s.memWrite addr v) k = .next t ∧ FaultedWith r s t ∧
        MemOutOfRangeAt s (some opcode) addr.toNat r)) ∧
    (addr.toNat ≤ 255 → (∃ w, s.memRead addr = some w) ∧
      ∃ t, s.memWrite addr v = some t ∧ t.memRead addr = some v ∧ KeepsMemBut addr s t ∧
        t = { s with mem := t.mem })

/-- Memories in the canonical form that read alike are the same data (log entry 6). -/
def Obligations.CanonicalMemoriesWithEqualReadsAreEqual : Prop :=
  ∀ m n : Memory, m.wf → n.wf → (∀ a : Nat, a < 256 → m.read a = n.read a) → m = n

/-- Only PUSH and CALL write memory, and only the cell below the stack pointer (R35, R52; R52 is derived by the spec). -/
def Obligations.OnlyPushAndCallWriteMemory : Prop :=
  ∀ (s t : State) (addr : Address), step s = .next t → t.memRead addr ≠ s.memRead addr →
    addr = s.decSp.spAddr ∧ ∃ a b, s.Fetches 0x45#8 a b ∨ s.Fetches 0x50#8 a b

/-- The transactions of the memory port in a step, each with an 8-bit address and an 8-bit data byte. The memory after the
step is the memory before it with the write transactions applied in order, and the data of every read is the cell's value.
A fetched instruction reads its three bytes first, in order, with at most one transaction of its own after them; near the
end of memory only the addresses that pass the range check appear, and a stopped machine has none (R52, R61, R102, R110;
decisions D2 and D8, log entry 9 for the port's view, log entry 2 for the step of a stopped machine). -/
def Obligations.PortTransactionsExplainMemory : Prop :=
  (∀ s t : State, step s = .next t → KeepsMem ((portAccesses s).foldl MemAccess.apply s) t) ∧
  (∀ (s : State) (addr data : Byte), MemAccess.read addr data ∈ portAccesses s →
    s.memRead (addr.setWidth 9) = some data) ∧
  (∀ (s : State) (opcode a b : Byte), s.Fetches opcode a b → ∃ rest, rest.length ≤ 1 ∧
    portAccesses s = .read (s.pc.setWidth 8) opcode :: .read ((s.pc + 1#9).setWidth 8) a ::
      .read ((s.pc + 2#9).setWidth 8) b :: rest) ∧
  (∀ s : State, s.run = .running →
    (255 < s.pc.toNat → portAccesses s = []) ∧
    (s.pc = 255#9 → ∃ opcode, portAccesses s = [.read 255#8 opcode]) ∧
    (s.pc = 254#9 → ∃ opcode a, portAccesses s = [.read 254#8 opcode, .read 255#8 a])) ∧
  (∀ s : State, s.run ≠ .running → portAccesses s = [])

/-- Which op-codes write which register: the destination of LDI, ADD, MUL and POP, and `x[7]` for PUSH, POP, CALL and RET
(R25, which the spec derives). -/
def Obligations.RegisterWritesFollowTheTable : Prop :=
  ∀ (s t : State) (j : RegIndex), step s = .next t → t.reg j ≠ s.reg j →
    ∃ opcode a b, s.Fetches opcode a b ∧
      ((opcode ∈ [0x82#8, 0xA0#8, 0xA2#8, 0x46#8] ∧ a.toNat = j.val) ∨
        (opcode ∈ [0x45#8, 0x46#8, 0x50#8, 0x11#8] ∧ j = 7))

/-- Every step keeps the invariant: canonical memory, `PC` in 0..256, `FAULT` a record exactly when TERMINATED, and the
record with the fields of its kind and the `PC` of the faulting instruction (R26, R28, R33, R54, R205; decisions D3, D6 and
D10, log entry 5). -/
def Obligations.StepKeepsTheInvariant : Prop :=
  ∀ s t : State, s.Inv → step s = .next t → t.Inv

/-- The state after reset meets the invariant. -/
def Obligations.ResetMeetsTheInvariant : Prop := State.reset.Inv

/-- The reset value of every piece of state (R37; FAULT and OUT by decisions D10 and D12). -/
def Obligations.ResetValues : Prop :=
  (∀ addr : Address, addr.toNat ≤ 255 → State.reset.memRead addr = some 0) ∧
  (∀ i : RegIndex, State.reset.reg i = if i = 7 then 0xF4#8 else 0) ∧
  State.reset.pc = 0 ∧ State.reset.flag = false ∧ State.reset.run = .running ∧ State.reset.fault = none ∧
  State.reset.out = []

/-! ### Reset, image load and the host's outputs (70_reset_and_hazards.md, 40_fetch_decode_execute.md) -/

/-- From any earlier state, reset and the load of an image of 1 to 256 bytes put the image at address 0, leave every other
cell 0 and everything else at its reset value, and meet the invariant; an image of another length is not started (R230,
R231; decisions D14 and D15). -/
def Obligations.BootLoadsTheImageAtZero : Prop :=
  ∀ (image : List Byte) (s : State),
    (1 ≤ image.length ∧ image.length ≤ 256 → ∃ t, boot image s = some t ∧
      (∀ addr : Address, addr.toNat ≤ 255 → t.memRead addr = some (image.getD addr.toNat 0)) ∧
      t = { State.reset with mem := t.mem } ∧ t.Inv) ∧
    (image.length = 0 ∨ 256 < image.length → boot image s = none)

/-- R232: once `rst` is released the block is RUNNING and its first step fetches the op-code at address 0. -/
def Obligations.FirstStepFetchesAtZero : Prop :=
  ∀ (image : List Byte) (s t : State), boot image s = some t →
    t.run = .running ∧ t.pc = 0 ∧ t.Fetches (image.getD 0 0) (image.getD 1 0) (image.getD 2 0)

/-- Every run of every image keeps the invariant (R26, R33; decisions D3, D6 and D10, log entry 5 for the record's shape, log
entry 2 for steps after the end of a run). -/
def Obligations.EveryLoadedRunKeepsTheInvariant : Prop :=
  ∀ (image : List Byte) (s₀ s t : State) (n : Nat), boot image s₀ = some s →
    Host.Core.run Sys2Proof.core n s = .next t → t.Inv

/-- A word stored where the next step fetches runs as the instruction that the decoder reads from it, from every state
whose `PC` an instruction can be fetched at (log entry 8). -/
def Obligations.FetchWordRuns : Prop :=
  ∀ (s : State) (nbits w : Nat) (i : Instr), s.pc.toNat ≤ 253 → decodeTableWord nbits w = some i →
    step (s.withFetchWord nbits w) = exec i (s.withFetchWord nbits w)

/-- The codes of the status outputs (R32, R33, R200; decision D10): `run_state` is never 0b11, and the fault code is 0
exactly when there is no record. -/
def Obligations.StatusOutputCodes : Prop :=
  RunState.running.code = 0b00 ∧ RunState.halted.code = 0b01 ∧ RunState.terminated.code = 0b10 ∧
  (∀ r : RunState, r.code ≠ 0b11) ∧
  FaultKind.unknownInstruction.code = 1 ∧ FaultKind.addressOutOfRange.code = 2 ∧ FaultKind.unsupportedOperation.code = 3 ∧
  (∀ s : State, s.faultCode = 0 ↔ s.fault = none)

/-- The host reads memory and registers only when the run has ended, and then as they are (R234; decision D2). -/
def Obligations.HostReadsOnlyAStoppedMachine : Prop :=
  ∀ (s : State) (addr : Address) (i : RegIndex),
    (s.run = .running → hostReadMem s addr = none ∧ hostReadReg s i = none) ∧
    (s.run ≠ .running → hostReadMem s addr = s.memRead addr ∧ hostReadReg s i = some (s.reg i))
end

