-- ==== Sys2Proof/Laws/State.lean ====
section
/-! SUPPORT. What each update of State does to each field, and what it does to a register read and to a read of the memory
port. -/

namespace Sys2Proof.Machine

variable (s : State)

/-! ### setReg -/

@[simp] theorem State.setReg_mem (i : RegIndex) (v : Byte) : (s.setReg i v).mem = s.mem := rfl
@[simp] theorem State.setReg_regs (i : RegIndex) (v : Byte) : (s.setReg i v).regs = s.regs.set i v := rfl
@[simp] theorem State.setReg_pc (i : RegIndex) (v : Byte) : (s.setReg i v).pc = s.pc := rfl
@[simp] theorem State.setReg_flag (i : RegIndex) (v : Byte) : (s.setReg i v).flag = s.flag := rfl
@[simp] theorem State.setReg_run (i : RegIndex) (v : Byte) : (s.setReg i v).run = s.run := rfl
@[simp] theorem State.setReg_fault (i : RegIndex) (v : Byte) : (s.setReg i v).fault = s.fault := rfl
@[simp] theorem State.setReg_out (i : RegIndex) (v : Byte) : (s.setReg i v).out = s.out := rfl
@[simp] theorem State.setReg_memRead (i : RegIndex) (v : Byte) (c : Address) : (s.setReg i v).memRead c = s.memRead c := rfl

/-! ### setPc -/

@[simp] theorem State.setPc_mem (a : Address) : (s.setPc a).mem = s.mem := rfl
@[simp] theorem State.setPc_regs (a : Address) : (s.setPc a).regs = s.regs := rfl
@[simp] theorem State.setPc_pc (a : Address) : (s.setPc a).pc = a := rfl
@[simp] theorem State.setPc_flag (a : Address) : (s.setPc a).flag = s.flag := rfl
@[simp] theorem State.setPc_run (a : Address) : (s.setPc a).run = s.run := rfl
@[simp] theorem State.setPc_fault (a : Address) : (s.setPc a).fault = s.fault := rfl
@[simp] theorem State.setPc_out (a : Address) : (s.setPc a).out = s.out := rfl
@[simp] theorem State.setPc_reg (a : Address) (j : RegIndex) : (s.setPc a).reg j = s.reg j := rfl
@[simp] theorem State.setPc_sp (a : Address) : (s.setPc a).sp = s.sp := rfl
@[simp] theorem State.setPc_memRead (a : Address) (c : Address) : (s.setPc a).memRead c = s.memRead c := rfl

/-! ### jumpTo -/

@[simp] theorem State.jumpTo_mem (b : Byte) : (s.jumpTo b).mem = s.mem := rfl
@[simp] theorem State.jumpTo_regs (b : Byte) : (s.jumpTo b).regs = s.regs := rfl
@[simp] theorem State.jumpTo_pc (b : Byte) : (s.jumpTo b).pc = b.setWidth 9 := rfl
@[simp] theorem State.jumpTo_flag (b : Byte) : (s.jumpTo b).flag = s.flag := rfl
@[simp] theorem State.jumpTo_run (b : Byte) : (s.jumpTo b).run = s.run := rfl
@[simp] theorem State.jumpTo_fault (b : Byte) : (s.jumpTo b).fault = s.fault := rfl
@[simp] theorem State.jumpTo_out (b : Byte) : (s.jumpTo b).out = s.out := rfl
@[simp] theorem State.jumpTo_reg (b : Byte) (j : RegIndex) : (s.jumpTo b).reg j = s.reg j := rfl
@[simp] theorem State.jumpTo_sp (b : Byte) : (s.jumpTo b).sp = s.sp := rfl
@[simp] theorem State.jumpTo_memRead (b : Byte) (c : Address) : (s.jumpTo b).memRead c = s.memRead c := rfl

/-! ### advance -/

@[simp] theorem State.advance_mem (w : Nat) : (s.advance w).mem = s.mem := rfl
@[simp] theorem State.advance_regs (w : Nat) : (s.advance w).regs = s.regs := rfl
@[simp] theorem State.advance_pc (w : Nat) : (s.advance w).pc = s.pc + BitVec.ofNat 9 w := rfl
@[simp] theorem State.advance_flag (w : Nat) : (s.advance w).flag = s.flag := rfl
@[simp] theorem State.advance_run (w : Nat) : (s.advance w).run = s.run := rfl
@[simp] theorem State.advance_fault (w : Nat) : (s.advance w).fault = s.fault := rfl
@[simp] theorem State.advance_out (w : Nat) : (s.advance w).out = s.out := rfl
@[simp] theorem State.advance_reg (w : Nat) (j : RegIndex) : (s.advance w).reg j = s.reg j := rfl
@[simp] theorem State.advance_sp (w : Nat) : (s.advance w).sp = s.sp := rfl
@[simp] theorem State.advance_memRead (w : Nat) (c : Address) : (s.advance w).memRead c = s.memRead c := rfl

/-! ### emit -/

@[simp] theorem State.emit_mem (v : Byte) : (s.emit v).mem = s.mem := rfl
@[simp] theorem State.emit_regs (v : Byte) : (s.emit v).regs = s.regs := rfl
@[simp] theorem State.emit_pc (v : Byte) : (s.emit v).pc = s.pc := rfl
@[simp] theorem State.emit_flag (v : Byte) : (s.emit v).flag = s.flag := rfl
@[simp] theorem State.emit_run (v : Byte) : (s.emit v).run = s.run := rfl
@[simp] theorem State.emit_fault (v : Byte) : (s.emit v).fault = s.fault := rfl
@[simp] theorem State.emit_out (v : Byte) : (s.emit v).out = s.out ++ [v] := rfl
@[simp] theorem State.emit_reg (v : Byte) (j : RegIndex) : (s.emit v).reg j = s.reg j := rfl
@[simp] theorem State.emit_sp (v : Byte) : (s.emit v).sp = s.sp := rfl
@[simp] theorem State.emit_memRead (v : Byte) (c : Address) : (s.emit v).memRead c = s.memRead c := rfl

/-! ### halt -/

@[simp] theorem State.halt_mem : (s.halt).mem = s.mem := rfl
@[simp] theorem State.halt_regs : (s.halt).regs = s.regs := rfl
@[simp] theorem State.halt_pc : (s.halt).pc = s.pc := rfl
@[simp] theorem State.halt_flag : (s.halt).flag = s.flag := rfl
@[simp] theorem State.halt_run : (s.halt).run = .halted := rfl
@[simp] theorem State.halt_fault : (s.halt).fault = s.fault := rfl
@[simp] theorem State.halt_out : (s.halt).out = s.out := rfl
@[simp] theorem State.halt_reg (j : RegIndex) : (s.halt).reg j = s.reg j := rfl
@[simp] theorem State.halt_sp : (s.halt).sp = s.sp := rfl
@[simp] theorem State.halt_memRead (c : Address) : (s.halt).memRead c = s.memRead c := rfl

/-! ### decSp -/

@[simp] theorem State.decSp_mem : (s.decSp).mem = s.mem := rfl
@[simp] theorem State.decSp_regs : (s.decSp).regs = s.regs.set Config.spIndex (s.sp - 1#8) := rfl
@[simp] theorem State.decSp_pc : (s.decSp).pc = s.pc := rfl
@[simp] theorem State.decSp_flag : (s.decSp).flag = s.flag := rfl
@[simp] theorem State.decSp_run : (s.decSp).run = s.run := rfl
@[simp] theorem State.decSp_fault : (s.decSp).fault = s.fault := rfl
@[simp] theorem State.decSp_out : (s.decSp).out = s.out := rfl
@[simp] theorem State.decSp_memRead (c : Address) : (s.decSp).memRead c = s.memRead c := rfl

/-! ### incSp -/

@[simp] theorem State.incSp_mem : (s.incSp).mem = s.mem := rfl
@[simp] theorem State.incSp_regs : (s.incSp).regs = s.regs.set Config.spIndex (s.sp + 1#8) := rfl
@[simp] theorem State.incSp_pc : (s.incSp).pc = s.pc := rfl
@[simp] theorem State.incSp_flag : (s.incSp).flag = s.flag := rfl
@[simp] theorem State.incSp_run : (s.incSp).run = s.run := rfl
@[simp] theorem State.incSp_fault : (s.incSp).fault = s.fault := rfl
@[simp] theorem State.incSp_out : (s.incSp).out = s.out := rfl
@[simp] theorem State.incSp_memRead (c : Address) : (s.incSp).memRead c = s.memRead c := rfl

/-! ### store -/

@[simp] theorem State.store_mem (a : Address) (v : Byte) : (s.store a v).mem = s.mem.write a.toNat v := rfl
@[simp] theorem State.store_regs (a : Address) (v : Byte) : (s.store a v).regs = s.regs := rfl
@[simp] theorem State.store_pc (a : Address) (v : Byte) : (s.store a v).pc = s.pc := rfl
@[simp] theorem State.store_flag (a : Address) (v : Byte) : (s.store a v).flag = s.flag := rfl
@[simp] theorem State.store_run (a : Address) (v : Byte) : (s.store a v).run = s.run := rfl
@[simp] theorem State.store_fault (a : Address) (v : Byte) : (s.store a v).fault = s.fault := rfl
@[simp] theorem State.store_out (a : Address) (v : Byte) : (s.store a v).out = s.out := rfl
@[simp] theorem State.store_reg (a : Address) (v : Byte) (j : RegIndex) : (s.store a v).reg j = s.reg j := rfl
@[simp] theorem State.store_sp (a : Address) (v : Byte) : (s.store a v).sp = s.sp := rfl

/-! ### setFlag -/

@[simp] theorem State.setFlag_mem (b : Bool) : (s.setFlag b).mem = s.mem := rfl
@[simp] theorem State.setFlag_regs (b : Bool) : (s.setFlag b).regs = s.regs := rfl
@[simp] theorem State.setFlag_pc (b : Bool) : (s.setFlag b).pc = s.pc := rfl
@[simp] theorem State.setFlag_flag (b : Bool) : (s.setFlag b).flag = b := rfl
@[simp] theorem State.setFlag_run (b : Bool) : (s.setFlag b).run = s.run := rfl
@[simp] theorem State.setFlag_fault (b : Bool) : (s.setFlag b).fault = s.fault := rfl
@[simp] theorem State.setFlag_out (b : Bool) : (s.setFlag b).out = s.out := rfl
@[simp] theorem State.setFlag_reg (b : Bool) (j : RegIndex) : (s.setFlag b).reg j = s.reg j := rfl
@[simp] theorem State.setFlag_sp (b : Bool) : (s.setFlag b).sp = s.sp := rfl
@[simp] theorem State.setFlag_memRead (b : Bool) (c : Address) : (s.setFlag b).memRead c = s.memRead c := rfl

/-! ### takeFault -/

@[simp] theorem State.takeFault_mem (r : FaultRecord) : (s.takeFault r).mem = s.mem := rfl
@[simp] theorem State.takeFault_regs (r : FaultRecord) : (s.takeFault r).regs = s.regs := rfl
@[simp] theorem State.takeFault_pc (r : FaultRecord) : (s.takeFault r).pc = s.pc := rfl
@[simp] theorem State.takeFault_flag (r : FaultRecord) : (s.takeFault r).flag = s.flag := rfl
@[simp] theorem State.takeFault_run (r : FaultRecord) : (s.takeFault r).run = .terminated := rfl
@[simp] theorem State.takeFault_fault (r : FaultRecord) : (s.takeFault r).fault = some r := rfl
@[simp] theorem State.takeFault_out (r : FaultRecord) : (s.takeFault r).out = s.out := rfl
@[simp] theorem State.takeFault_reg (r : FaultRecord) (j : RegIndex) : (s.takeFault r).reg j = s.reg j := rfl
@[simp] theorem State.takeFault_sp (r : FaultRecord) : (s.takeFault r).sp = s.sp := rfl
@[simp] theorem State.takeFault_memRead (r : FaultRecord) (c : Address) : (s.takeFault r).memRead c = s.memRead c := rfl

/-! ### restart -/

@[simp] theorem State.restart_mem : (s.restart).mem = s.mem := rfl
@[simp] theorem State.restart_regs : (s.restart).regs = s.regs := rfl
@[simp] theorem State.restart_pc : (s.restart).pc = s.pc := rfl
@[simp] theorem State.restart_flag : (s.restart).flag = s.flag := rfl
@[simp] theorem State.restart_run : (s.restart).run = .running := rfl
@[simp] theorem State.restart_fault : (s.restart).fault = none := rfl
@[simp] theorem State.restart_out : (s.restart).out = s.out := rfl
@[simp] theorem State.restart_reg (j : RegIndex) : (s.restart).reg j = s.reg j := rfl
@[simp] theorem State.restart_sp : (s.restart).sp = s.sp := rfl
@[simp] theorem State.restart_memRead (c : Address) : (s.restart).memRead c = s.memRead c := rfl

/-! ### Register reads after register writes -/

theorem State.reg_setReg (i j : RegIndex) (v : Byte) : (s.setReg i v).reg j = if i = j then v else s.reg j := by
  simp only [State.reg, State.setReg, Fin.getElem_fin, Vector.getElem_set, Fin.ext_iff]

@[simp] theorem State.reg_setReg_same (i : RegIndex) (v : Byte) : (s.setReg i v).reg i = v := by
  simp [State.reg_setReg]

theorem State.reg_setReg_other (i j : RegIndex) (v : Byte) (h : j ≠ i) : (s.setReg i v).reg j = s.reg j := by
  simp [State.reg_setReg, h.symm]

@[simp] theorem State.decSp_sp : s.decSp.sp = s.sp - 1#8 := s.reg_setReg_same _ _

@[simp] theorem State.incSp_sp : s.incSp.sp = s.sp + 1#8 := s.reg_setReg_same _ _

theorem State.decSp_reg (j : RegIndex) : s.decSp.reg j = if j = 7 then s.reg 7 - 1#8 else s.reg j := by
  simp only [State.decSp, State.reg_setReg, State.sp, Config.spIndex, eq_comm]

theorem State.incSp_reg (j : RegIndex) : s.incSp.reg j = if j = 7 then s.reg 7 + 1#8 else s.reg j := by
  simp only [State.incSp, State.reg_setReg, State.sp, Config.spIndex, eq_comm]

/-- States with the same registers are equal register by register, and conversely. -/
theorem State.regs_eq_iff (t : State) : s.regs = t.regs ↔ ∀ i : RegIndex, s.reg i = t.reg i := by
  refine ⟨fun h i => by simp [State.reg, h], fun h => Vector.ext fun k hk => ?_⟩
  simpa [State.reg] using h ⟨k, hk⟩

/-! ### Conditional output -/

@[simp] theorem State.emitIf_true (a : RegIndex) : s.emitIf true a = s.emit (s.reg a) := rfl
@[simp] theorem State.emitIf_false (a : RegIndex) : s.emitIf false a = s := rfl

theorem State.emitIf_out (b : Bool) (a : RegIndex) :
    (s.emitIf b a).out = s.out ++ (if b then [s.reg a] else []) := by cases b <;> simp

@[simp] theorem State.emitIf_mem (b : Bool) (a : RegIndex) : (s.emitIf b a).mem = s.mem := by cases b <;> rfl
@[simp] theorem State.emitIf_regs (b : Bool) (a : RegIndex) : (s.emitIf b a).regs = s.regs := by cases b <;> rfl
@[simp] theorem State.emitIf_pc (b : Bool) (a : RegIndex) : (s.emitIf b a).pc = s.pc := by cases b <;> rfl
@[simp] theorem State.emitIf_flag (b : Bool) (a : RegIndex) : (s.emitIf b a).flag = s.flag := by cases b <;> rfl
@[simp] theorem State.emitIf_run (b : Bool) (a : RegIndex) : (s.emitIf b a).run = s.run := by cases b <;> rfl
@[simp] theorem State.emitIf_fault (b : Bool) (a : RegIndex) : (s.emitIf b a).fault = s.fault := by cases b <;> rfl
@[simp] theorem State.emitIf_reg (b : Bool) (a j : RegIndex) : (s.emitIf b a).reg j = s.reg j := by cases b <;> rfl
@[simp] theorem State.emitIf_memRead (b : Bool) (a : RegIndex) (c : Address) :
    (s.emitIf b a).memRead c = s.memRead c := by cases b <;> rfl

end Sys2Proof.Machine
end

