-- ==== Sys2Proof/Laws/Memory.lean ====
section
/-! SUPPORT. The memory array: a read after a write, and the canonical form, which every memory operation keeps. -/

namespace Sys2Proof.Machine

/-! ### Reads -/

theorem Memory.read_erase (m : Memory) (a b : Nat) :
    (m.erase a).read b = if b = a then Memory.unlisted else m.read b := by
  induction m with
  | nil => simp [Memory.erase, Memory.read]
  | cons c rest ih =>
    simp only [Memory.erase] at ih
    by_cases hca : c.1 = a
    · simp only [Memory.erase, List.filter_cons, hca, bne_self_eq_false, Bool.false_eq_true, ↓reduceIte, ih, Memory.read]
      split <;> simp_all [eq_comm]
    · simp only [Memory.erase, List.filter_cons, bne_iff_ne, ne_eq, hca, not_false_eq_true, ↓reduceIte, Memory.read, ih]
      split <;> simp_all

theorem Memory.read_insert (m : Memory) (a b : Nat) (v : Byte) (h : ∀ c ∈ m, c.1 ≠ a) :
    (m.insert a v).read b = if b = a then v else m.read b := by
  induction m with
  | nil => simp [Memory.insert, Memory.read, eq_comm]
  | cons c rest ih =>
    have ih := ih fun d hd => h d (List.mem_cons_of_mem _ hd)
    have hc := h c List.mem_cons_self
    simp only [Memory.insert]
    split
    · simp [Memory.read, eq_comm]
    · simp only [Memory.read, ih]
      split <;> simp_all

theorem Memory.mem_erase {m : Memory} {a : Nat} {c : Host.Cell} : c ∈ m.erase a ↔ c ∈ m ∧ c.1 ≠ a := by
  simp [Memory.erase]

/-- A read gives the value of the last write to that cell (20_memory.md R61). -/
theorem Memory.read_write (m : Memory) (a b : Nat) (v : Byte) :
    (m.write a v).read b = if b = a then v else m.read b := by
  unfold Memory.write
  split
  · simp_all [Memory.read_erase]
  · rw [Memory.read_insert _ _ _ _ fun c hc => (Memory.mem_erase.1 hc).2, Memory.read_erase]
    split <;> simp_all

/-! ### The canonical form -/

theorem Memory.mem_insert {m : Memory} {a : Nat} {v : Byte} {c : Host.Cell} :
    c ∈ m.insert a v ↔ c = (a, v) ∨ c ∈ m := by
  induction m with
  | nil => simp [Memory.insert]
  | cons d rest ih =>
    simp only [Memory.insert]
    split
    · simp
    · simp only [List.mem_cons, ih]; tauto

theorem Memory.wf_erase {m : Memory} (a : Nat) (h : m.wf) : (m.erase a).wf :=
  ⟨h.1.sublist List.filter_sublist, fun c hc => h.2 c (Memory.mem_erase.1 hc).1⟩

theorem Memory.insert_sorted {m : Memory} (a : Nat) (v : Byte) (h : m.Pairwise (fun c d => c.1 < d.1))
    (hne : ∀ c ∈ m, c.1 ≠ a) : (m.insert a v).Pairwise (fun c d => c.1 < d.1) := by
  induction m with
  | nil => simp [Memory.insert]
  | cons c rest ih =>
    obtain ⟨hc, hrest⟩ := List.pairwise_cons.1 h
    have hca := hne c List.mem_cons_self
    simp only [Memory.insert]
    split
    · next hlt =>
      refine List.pairwise_cons.2 ⟨fun d hd => ?_, h⟩
      rcases List.mem_cons.1 hd with rfl | hd
      · exact hlt
      · exact lt_trans hlt (hc d hd)
    · next hnlt =>
      refine List.pairwise_cons.2 ⟨fun d hd => ?_, ih hrest fun d hd => hne d (List.mem_cons_of_mem _ hd)⟩
      rcases Memory.mem_insert.1 hd with rfl | hd
      · exact lt_of_le_of_ne (not_lt.1 hnlt) hca
      · exact hc d hd

/-- A write to an existing cell keeps the canonical form. -/
theorem Memory.wf_write {m : Memory} (a : Nat) (v : Byte) (ha : a < Config.memSize) (h : m.wf) : (m.write a v).wf := by
  unfold Memory.write
  split
  · exact Memory.wf_erase a h
  · next hv =>
    have he := Memory.wf_erase a h
    refine ⟨Memory.insert_sorted a v he.1 fun c hc => (Memory.mem_erase.1 hc).2, fun c hc => ?_⟩
    rcases Memory.mem_insert.1 hc with rfl | hc
    · exact ⟨ha, hv⟩
    · exact he.2 c hc

theorem Memory.wf_writeBytes (bs : List Byte) (a : Nat) (m : Memory) (ha : a + bs.length ≤ Config.memSize) (h : m.wf) :
    (Memory.writeBytes bs a m).wf := by
  induction bs generalizing a m with
  | nil => exact h
  | cons b rest ih =>
    rw [List.length_cons] at ha
    exact ih (a + 1) _ (by omega) (Memory.wf_write a b (by omega) h)

theorem Memory.wf_reset : State.reset.mem.wf := ⟨List.Pairwise.nil, by simp [State.reset]⟩

/-! ### The memory port -/

/-- The range check (20_memory.md R53), on a read. -/
theorem State.memRead_of_lt (s : State) {a : Address} (h : a.toNat < 256) : s.memRead a = some (s.mem.read a.toNat) :=
  if_pos h

theorem State.memRead_of_ge (s : State) {a : Address} (h : 256 ≤ a.toNat) : s.memRead a = none :=
  if_neg (Nat.not_lt.2 h)

/-- The range check (20_memory.md R53), on a write. -/
theorem State.memWrite_of_lt (s : State) {a : Address} (v : Byte) (h : a.toNat < 256) : s.memWrite a v = some (s.store a v) :=
  if_pos h

theorem State.memRead_congr {s t : State} (h : t.mem = s.mem) (a : Address) : t.memRead a = s.memRead a := by
  simp [State.memRead, h]

theorem byte_address_toNat (b : Byte) : (b.setWidth 9 : Address).toNat = b.toNat := by
  rw [BitVec.toNat_setWidth]; have := b.isLt; omega

theorem byte_address_lt (b : Byte) : (b.setWidth 9 : Address).toNat < 256 := by
  rw [byte_address_toNat]; exact b.isLt

theorem State.spAddr_lt (s : State) : s.spAddr.toNat < 256 := byte_address_lt _

/-- A stack read never fails the range check (20_memory.md R54). -/
theorem State.memRead_spAddr (s : State) : s.memRead s.spAddr = some (s.mem.read s.spAddr.toNat) :=
  s.memRead_of_lt s.spAddr_lt

/-- A read of the port after a store. -/
theorem State.memRead_store (s : State) (a b : Address) (v : Byte) :
    (s.store a v).memRead b = if b.toNat < 256 ∧ b = a then some v else s.memRead b := by
  by_cases hb : b.toNat < 256
  · rw [State.memRead_of_lt _ hb, State.memRead_of_lt _ hb, State.store_mem, Memory.read_write]
    by_cases hab : b = a
    · simp [hab, hab ▸ hb]
    · simp [hab, BitVec.toNat_inj]
  · rw [State.memRead_of_ge _ (Nat.not_lt.1 hb), State.memRead_of_ge _ (Nat.not_lt.1 hb)]; simp [hb]

theorem State.memRead_store_same (s : State) {a : Address} (v : Byte) (h : a.toNat < 256) :
    (s.store a v).memRead a = some v := by simp [State.memRead_store, h]

theorem State.memRead_store_other (s : State) {a b : Address} (v : Byte) (h : b ≠ a) :
    (s.store a v).memRead b = s.memRead b := by simp [State.memRead_store, h]

end Sys2Proof.Machine
end

