-- ==== Sys2Proof/Laws/Ops.lean ====
section
/-! SUPPORT. What each shared operation can do: the register-index check, the memory port, the decoder and the fetch. -/

namespace Sys2Proof.Machine

/-! ### The register-index check -/

theorem regIndex_of_lt {b : Byte} (h : b.toNat < 8) : regIndex b = some ⟨b.toNat, h⟩ := dif_pos h

theorem regIndex_of_ge {b : Byte} (h : 8 ≤ b.toNat) : regIndex b = none := dif_neg (Nat.not_lt.2 h)

theorem withReg_of_lt (s : State) (opcode : Byte) {b : Byte} (h : b.toNat < 8) (k : RegIndex → Result) :
    withReg s opcode b k = k ⟨b.toNat, h⟩ := by simp [withReg, regIndex_of_lt h]

theorem withReg_of_ge (s : State) (opcode : Byte) {b : Byte} (h : 8 ≤ b.toNat) (k : RegIndex → Result) :
    withReg s opcode b k = raise s (regOutOfRangeRecord s opcode b) := by simp [withReg, regIndex_of_ge h]

theorem withRegs_of_lt (s : State) (opcode : Byte) {a b : Byte} (ha : a.toNat < 8) (hb : b.toNat < 8)
    (k : RegIndex → RegIndex → Result) : withRegs s opcode a b k = k ⟨a.toNat, ha⟩ ⟨b.toNat, hb⟩ := by
  simp [withRegs, withReg_of_lt, ha, hb]

/-- `operand_a` is checked first (40_fetch_decode_execute.md R108). -/
theorem withRegs_of_ge_left (s : State) (opcode : Byte) {a : Byte} (b : Byte) (ha : 8 ≤ a.toNat)
    (k : RegIndex → RegIndex → Result) : withRegs s opcode a b k = raise s (regOutOfRangeRecord s opcode a) := by
  simp [withRegs, withReg_of_ge, ha]

theorem withRegs_of_ge_right (s : State) (opcode : Byte) {a b : Byte} (ha : a.toNat < 8) (hb : 8 ≤ b.toNat)
    (k : RegIndex → RegIndex → Result) : withRegs s opcode a b k = raise s (regOutOfRangeRecord s opcode b) := by
  simp [withRegs, withReg_of_lt, withReg_of_ge, ha, hb]

/-! ### Fault entry -/

/-- Fault entry does nothing but set the run state and the record (60_exceptions.md R204, R205). -/
theorem faultedWith_takeFault (s : State) (r : FaultRecord) : FaultedWith r s (s.takeFault r) :=
  ⟨rfl, rfl, rfl, rfl, rfl, fun _ _ => rfl, fun _ => rfl⟩

theorem unknownInstructionRecord_at (s : State) (opcode : Byte) :
    UnknownInstructionAt s opcode (unknownInstructionRecord s opcode) := ⟨rfl, rfl, rfl⟩

theorem memOutOfRangeRecord_at (s : State) (opcode : Option Byte) (addr : Address) :
    MemOutOfRangeAt s opcode addr.toNat (memOutOfRangeRecord s opcode addr) := ⟨rfl, rfl, rfl, rfl, rfl⟩

theorem regOutOfRangeRecord_at (s : State) (opcode index : Byte) :
    RegOutOfRangeAt s opcode index (regOutOfRangeRecord s opcode index) :=
  ⟨rfl, rfl, rfl, rfl, by rw [regOutOfRangeRecord, Option.map_some, byte_address_toNat]⟩

/-! ### The memory port in a handler -/

@[simp] theorem onPort_some {α : Type} (s : State) (opcode : Byte) (addr : Address) (r : α) (k : α → Result) :
    onPort s opcode addr (some r) k = k r := rfl

/-- A stack read goes on with the cell's value (20_memory.md R54). -/
theorem onPort_pop (s : State) (opcode : Byte) (k : Byte → Result) :
    onPort s opcode s.spAddr (s.memRead s.spAddr) k = k (s.mem.read s.spAddr.toNat) := by
  rw [State.memRead_spAddr, onPort_some]

/-- A stack write goes on with the state after the store (20_memory.md R54). -/
theorem onPort_push (s t : State) (opcode : Byte) (v : Byte) (k : State → Result) :
    onPort s opcode t.spAddr (t.memWrite t.spAddr v) k = k (t.store t.spAddr v) := by
  rw [State.memWrite_of_lt _ _ t.spAddr_lt, onPort_some]

/-! ### The decoder -/

/-- What the decoder can answer: the instruction of the one row that matches the whole op-code, or a rejection of an
op-code that no row has (30_encoding.md R77, R78). -/
theorem decode_cases (opcode a b : Byte) :
    (∃ row ∈ opcodeTable, row.opcode = opcode ∧ decode opcode a b = .ok (row.build a b)) ∨
      ((∀ row ∈ opcodeTable, row.opcode ≠ opcode) ∧ decode opcode a b = .error (.unknownInstruction opcode)) := by
  unfold decode
  cases h : opcodeTable.find? (fun row => row.opcode == opcode) with
  | some row => exact .inl ⟨row, List.mem_of_find?_eq_some h, by simpa using List.find?_some h, rfl⟩
  | none => exact .inr ⟨by simpa using h, rfl⟩

/-- Every row builds instructions with the row's op-code, from the leading operand bytes (30_encoding.md R72, R73). -/
theorem opcodeTable_build (a b : Byte) : ∀ row ∈ opcodeTable,
    (row.build a b).opcode = row.opcode ∧ (row.build a b).operandBytes <+: [a, b] := by
  simp [opcodeTable, Instr.opcode, Instr.operandBytes]

/-- Three bytes decode to an instruction exactly when they are its op-code and, in order, its operand bytes (30_encoding.md
R73, R76, R77): a case split on the instruction then gives both. -/
theorem decode_ok_iff {opcode a b : Byte} {i : Instr} :
    decode opcode a b = .ok i ↔ opcode = i.opcode ∧ i.operandBytes <+: [a, b] := by
  constructor
  · intro h
    rcases decode_cases opcode a b with ⟨row, hrow, ho, hd⟩ | ⟨-, hd⟩
    · obtain rfl : row.build a b = i := by simpa [hd] using h
      obtain ⟨hop, hbytes⟩ := opcodeTable_build a b row hrow
      exact ⟨by rw [hop, ho], hbytes⟩
    · simp [hd] at h
  · rintro ⟨rfl, h⟩
    cases i <;> first
      | rfl
      | simp only [Instr.operandBytes, List.cons_prefix_cons, List.nil_prefix, and_true] at h
        simp only [h]
        rfl

/-- The decoded instruction has the op-code it was decoded from. -/
theorem opcode_of_decode {opcode a b : Byte} {i : Instr} (h : decode opcode a b = .ok i) : i.opcode = opcode :=
  (decode_ok_iff.1 h).1.symm

/-! ### The fetch -/

theorem pc_add_toNat {pc : Address} {k : Nat} (h : pc.toNat ≤ 256) (hk : k ≤ 3) :
    (pc + BitVec.ofNat 9 k).toNat = pc.toNat + k := by
  rw [BitVec.toNat_add, BitVec.toNat_ofNat]; omega

/-- The fetch of an instruction at 253 or below latches the three bytes (40_fetch_decode_execute.md R101, R102). -/
theorem fetch_of_le {s : State} (h : s.pc.toNat ≤ 253) :
    fetch s = .ok ⟨s.mem.read s.pc.toNat, s.mem.read (s.pc.toNat + 1), s.mem.read (s.pc.toNat + 2)⟩ := by
  have h1 : (s.pc + 1#9).toNat = s.pc.toNat + 1 := pc_add_toNat (k := 1) (by omega) (by omega)
  have h2 : (s.pc + 2#9).toNat = s.pc.toNat + 2 := pc_add_toNat (k := 2) (by omega) (by omega)
  simp [fetch, State.memRead_of_lt, h1, h2, show s.pc.toNat < 256 by omega, show s.pc.toNat + 1 < 256 by omega,
    show s.pc.toNat + 2 < 256 by omega]

/-- The op-code fetch above 255 fails (R101). -/
theorem fetch_of_gt {s : State} (h : 256 ≤ s.pc.toNat) : fetch s = .error (memOutOfRangeRecord s none s.pc) := by
  simp [fetch, State.memRead_of_ge, h]

/-- An operand fetch of an instruction at 254 or 255 fails, at 256 (R102). -/
theorem fetch_of_end {s : State} (h : s.pc.toNat = 254 ∨ s.pc.toNat = 255) :
    fetch s = .error (memOutOfRangeRecord s (some (s.mem.read s.pc.toNat)) 256#9) := by
  have hpc : s.pc = 254 ∨ s.pc = 255 := by
    rcases h with h | h
    · exact .inl (BitVec.eq_of_toNat_eq h)
    · exact .inr (BitVec.eq_of_toNat_eq h)
  rcases hpc with h | h <;> simp [fetch, State.memRead, h, Config.memSize]

/-- What a step starts from, as equations about the memory array. -/
theorem State.Fetches.fetch_eq {s : State} {opcode a b : Byte} (h : s.Fetches opcode a b) : fetch s = .ok ⟨opcode, a, b⟩ := by
  simp [fetch, h.opcodeAt, h.operandAAt, h.operandBAt]

/-- The latched bytes are determined by the state. -/
theorem State.Fetches.unique {s : State} {opcode a b opcode' a' b' : Byte} (h : s.Fetches opcode a b)
    (h' : s.Fetches opcode' a' b') : opcode' = opcode ∧ a' = a ∧ b' = b := by
  have e := h.fetch_eq.symm.trans h'.fetch_eq
  simp only [Except.ok.injEq, Latches.mk.injEq] at e
  exact ⟨e.1.symm, e.2.1.symm, e.2.2.symm⟩

/-- A running controller at 253 or below has its three bytes. -/
theorem State.fetches_of_le {s : State} (hr : s.run = .running) (h : s.pc.toNat ≤ 253) :
    s.Fetches (s.mem.read s.pc.toNat) (s.mem.read (s.pc.toNat + 1)) (s.mem.read (s.pc.toNat + 2)) := by
  have h1 : (s.pc + 1#9).toNat = s.pc.toNat + 1 := pc_add_toNat (k := 1) (by omega) (by omega)
  have h2 : (s.pc + 2#9).toNat = s.pc.toNat + 2 := pc_add_toNat (k := 2) (by omega) (by omega)
  refine ⟨hr, h, ?_, ?_, ?_⟩ <;> simp [State.memRead_of_lt, h1, h2, show s.pc.toNat < 256 by omega,
    show s.pc.toNat + 1 < 256 by omega, show s.pc.toNat + 2 < 256 by omega]

theorem fetchDecode_of_ok {s : State} {opcode a b : Byte} {i : Instr} (h : s.Fetches opcode a b)
    (hd : decode opcode a b = .ok i) : fetchDecode s = .ok i := by simp [fetchDecode, h.fetch_eq, hd]

theorem fetchDecode_of_unknown {s : State} {opcode a b : Byte} (h : s.Fetches opcode a b)
    (hd : decode opcode a b = .error (.unknownInstruction opcode)) :
    fetchDecode s = .error (unknownInstructionRecord s opcode) := by simp [fetchDecode, h.fetch_eq, hd]

end Sys2Proof.Machine
end

