-- ==== Sys2Proof/Laws/Exec.lean ====
section
/-! SUPPORT. What each handler answers when its register indices name registers, and what it answers when one does not; what
a step can do. -/

namespace Sys2Proof.Machine

/-! ### The ALU (42_alu.md R130) -/

@[simp] theorem alu_add (s : State) (opcode : Byte) (a b : RegIndex) (k : State → Result) :
    alu s opcode .add a b k = k (s.setReg a (s.reg a + s.reg b)) := rfl

@[simp] theorem alu_mul (s : State) (opcode : Byte) (a b : RegIndex) (k : State → Result) :
    alu s opcode .mul a b k = k (s.setReg a (s.reg a * s.reg b)) := rfl

/-! ### The handlers' effects -/

theorem execLdi_of_lt (s : State) {ra : Byte} (imm8 : Byte) (h : ra.toNat < 8) :
    execLdi ra imm8 s = .next ((s.setReg ⟨ra.toNat, h⟩ imm8).advance 3) := withReg_of_lt s _ h _

theorem execPrn_of_lt (s : State) {ra : Byte} (h : ra.toNat < 8) :
    execPrn ra s = .next ((s.emit (s.reg ⟨ra.toNat, h⟩)).advance 2) := withReg_of_lt s _ h _

theorem execAdd_of_lt (s : State) {ra rb : Byte} (ha : ra.toNat < 8) (hb : rb.toNat < 8) :
    execAdd ra rb s =
      .next ((s.setReg ⟨ra.toNat, ha⟩ (s.reg ⟨ra.toNat, ha⟩ + s.reg ⟨rb.toNat, hb⟩)).advance 3) :=
  withRegs_of_lt s _ ha hb _

theorem mulWith_of_lt (emits : Bool) (s : State) {ra rb : Byte} (ha : ra.toNat < 8) (hb : rb.toNat < 8) :
    mulWith emits ra rb s =
      .next (((s.setReg ⟨ra.toNat, ha⟩ (s.reg ⟨ra.toNat, ha⟩ * s.reg ⟨rb.toNat, hb⟩)).emitIf emits
        ⟨ra.toNat, ha⟩).advance 3) :=
  withRegs_of_lt s _ ha hb _

theorem execMul_of_lt (s : State) {ra rb : Byte} (ha : ra.toNat < 8) (hb : rb.toNat < 8) :
    execMul ra rb s =
      .next (((s.setReg ⟨ra.toNat, ha⟩ (s.reg ⟨ra.toNat, ha⟩ * s.reg ⟨rb.toNat, hb⟩)).emitIf mulEmits
        ⟨ra.toNat, ha⟩).advance 3) :=
  mulWith_of_lt mulEmits s ha hb

theorem execPush_of_lt (s : State) {ra : Byte} (h : ra.toNat < 8) :
    execPush ra s = .next ((s.decSp.store s.decSp.spAddr (s.decSp.reg ⟨ra.toNat, h⟩)).advance 2) := by
  rw [execPush, withReg_of_lt s _ h, onPort_push]

theorem execPop_of_lt (s : State) {ra : Byte} (h : ra.toNat < 8) :
    execPop ra s = .next ((s.setReg ⟨ra.toNat, h⟩ (s.mem.read s.spAddr.toNat)).incSp.advance 2) := by
  rw [execPop, withReg_of_lt s _ h, onPort_pop]

theorem execCall_of_lt (s : State) {ra : Byte} (h : ra.toNat < 8) :
    execCall ra s =
      .next ((s.decSp.store s.decSp.spAddr (returnAddress s)).jumpTo (s.decSp.reg ⟨ra.toNat, h⟩)) := by
  rw [execCall, withReg_of_lt s _ h, onPort_push, State.store_reg]

theorem execRet_eq (s : State) : execRet s = .next (s.jumpTo (s.mem.read s.spAddr.toNat)).incSp := by
  rw [execRet, onPort_pop]

theorem execCmp_of_lt (s : State) {ra rb : Byte} (ha : ra.toNat < 8) (hb : rb.toNat < 8) :
    execCmp ra rb s =
      .next ((s.setFlag (equalFlag (s.reg ⟨ra.toNat, ha⟩) (s.reg ⟨rb.toNat, hb⟩))).advance 3) :=
  withRegs_of_lt s _ ha hb _

theorem jumpIf_taken (s : State) (opcode : Byte) {ra : Byte} (h : ra.toNat < 8) :
    jumpIf s opcode ra true = .next (s.jumpTo (s.reg ⟨ra.toNat, h⟩)) := withReg_of_lt s _ h _

theorem jumpIf_not_taken (s : State) (opcode ra : Byte) : jumpIf s opcode ra false = .next (s.advance 2) := rfl

/-! ### Every handler: either the first bad index is raised, or the handler goes on without a fault -/

/-- A handler that uses a byte 8..255 as a register index raises AddressOutOfRange for the first one (R108). -/
theorem exec_of_badIndex {i : Instr} {s : State} {b : Byte} (h : firstBadIndex i s.flag = some b) :
    exec i s = raise s (regOutOfRangeRecord s i.opcode b) := by
  have one : ∀ {a : Byte}, [a].find? (fun c : Byte => decide (8 ≤ c.toNat)) = some b → 8 ≤ a.toNat ∧ a = b := by
    intro a ha
    by_cases h8 : 8 ≤ a.toNat <;> simp_all
  have two : ∀ {a c : Byte}, [a, c].find? (fun c : Byte => decide (8 ≤ c.toNat)) = some b →
      (8 ≤ a.toNat ∧ a = b) ∨ (a.toNat < 8 ∧ 8 ≤ c.toNat ∧ c = b) := by
    intro a c hac
    by_cases h8 : 8 ≤ a.toNat
    · simp_all
    · simp only [List.find?_cons, h8, decide_false] at hac
      exact .inr ⟨by omega, one hac⟩
  cases i with
  | ldi ra imm8 => obtain ⟨h8, rfl⟩ := one h; exact withReg_of_ge s _ h8 _
  | prn ra => obtain ⟨h8, rfl⟩ := one h; exact withReg_of_ge s _ h8 _
  | push ra => obtain ⟨h8, rfl⟩ := one h; exact withReg_of_ge s _ h8 _
  | pop ra => obtain ⟨h8, rfl⟩ := one h; exact withReg_of_ge s _ h8 _
  | call ra => obtain ⟨h8, rfl⟩ := one h; exact withReg_of_ge s _ h8 _
  | jmp ra => obtain ⟨h8, rfl⟩ := one h; exact withReg_of_ge s _ h8 _
  | jeq ra =>
    cases hf : s.flag with
    | true =>
      obtain ⟨h8, rfl⟩ := one (by simpa [firstBadIndex, checkedIndices, hf] using h)
      simpa [exec, execJeq, jumpIf, hf] using withReg_of_ge s _ h8 _
    | false => simp [firstBadIndex, checkedIndices, hf] at h
  | jne ra =>
    cases hf : s.flag with
    | false =>
      obtain ⟨h8, rfl⟩ := one (by simpa [firstBadIndex, checkedIndices, hf] using h)
      simpa [exec, execJne, jumpIf, hf] using withReg_of_ge s _ h8 _
    | true => simp [firstBadIndex, checkedIndices, hf] at h
  | add ra rb =>
    rcases two h with ⟨h8, rfl⟩ | ⟨hlt, h8, rfl⟩
    · exact withRegs_of_ge_left s _ _ h8 _
    · exact withRegs_of_ge_right s _ hlt h8 _
  | mul ra rb =>
    rcases two h with ⟨h8, rfl⟩ | ⟨hlt, h8, rfl⟩
    · exact withRegs_of_ge_left s _ _ h8 _
    · exact withRegs_of_ge_right s _ hlt h8 _
  | cmp ra rb =>
    rcases two h with ⟨h8, rfl⟩ | ⟨hlt, h8, rfl⟩
    · exact withRegs_of_ge_left s _ _ h8 _
    · exact withRegs_of_ge_right s _ hlt h8 _
  | ret => simp [firstBadIndex, checkedIndices] at h
  | hlt => simp [firstBadIndex, checkedIndices] at h

/-- The register of an operand byte that names one. -/
def regOf (b : Byte) : RegIndex := ⟨b.toNat % 8, Nat.mod_lt _ (by decide)⟩

theorem regOf_of_lt {b : Byte} (h : b.toNat < 8) : regOf b = ⟨b.toNat, h⟩ := Fin.ext (Nat.mod_eq_of_lt h)

/-- What a handler can do when every index it uses names a register: the state it leaves, instruction by instruction. -/
def effect (i : Instr) (s : State) : State :=
  match i with
  | .ldi ra imm8 => (s.setReg (regOf ra) imm8).advance 3
  | .prn ra => (s.emit (s.reg (regOf ra))).advance 2
  | .add ra rb =>
    (s.setReg (regOf ra) (s.reg (regOf ra) + s.reg (regOf rb))).advance 3
  | .mul ra rb =>
    ((s.setReg (regOf ra) (s.reg (regOf ra) * s.reg (regOf rb))).emitIf mulEmits
      (regOf ra)).advance 3
  | .push ra => (s.decSp.store s.decSp.spAddr (s.decSp.reg (regOf ra))).advance 2
  | .pop ra => (s.setReg (regOf ra) (s.mem.read s.spAddr.toNat)).incSp.advance 2
  | .call ra => (s.decSp.store s.decSp.spAddr (returnAddress s)).jumpTo (s.decSp.reg (regOf ra))
  | .ret => (s.jumpTo (s.mem.read s.spAddr.toNat)).incSp
  | .cmp ra rb => (s.setFlag (equalFlag (s.reg (regOf ra)) (s.reg (regOf rb)))).advance 3
  | .jmp ra => s.jumpTo (s.reg (regOf ra))
  | .jeq ra => if s.flag then s.jumpTo (s.reg (regOf ra)) else s.advance 2
  | .jne ra => if s.flag then s.advance 2 else s.jumpTo (s.reg (regOf ra))
  | .hlt => s.halt

/-- A handler whose indices all name registers leaves its effect. -/
theorem exec_of_goodIndex {i : Instr} {s : State} (h : firstBadIndex i s.flag = none) : exec i s = .next (effect i s) := by
  cases i with
  | ldi ra imm8 =>
    have ha : ra.toNat < 8 := by simpa [firstBadIndex, checkedIndices] using h
    simpa [exec, effect, regOf_of_lt ha] using execLdi_of_lt s imm8 ha
  | prn ra =>
    have ha : ra.toNat < 8 := by simpa [firstBadIndex, checkedIndices] using h
    simpa [exec, effect, regOf_of_lt ha] using execPrn_of_lt s ha
  | add ra rb =>
    have ⟨ha, hb⟩ : ra.toNat < 8 ∧ rb.toNat < 8 := by simpa [firstBadIndex, checkedIndices] using h
    simpa [exec, effect, regOf_of_lt ha, regOf_of_lt hb] using execAdd_of_lt s ha hb
  | mul ra rb =>
    have ⟨ha, hb⟩ : ra.toNat < 8 ∧ rb.toNat < 8 := by simpa [firstBadIndex, checkedIndices] using h
    simpa [exec, effect, regOf_of_lt ha, regOf_of_lt hb] using execMul_of_lt s ha hb
  | push ra =>
    have ha : ra.toNat < 8 := by simpa [firstBadIndex, checkedIndices] using h
    simpa [exec, effect, regOf_of_lt ha] using execPush_of_lt s ha
  | pop ra =>
    have ha : ra.toNat < 8 := by simpa [firstBadIndex, checkedIndices] using h
    simpa [exec, effect, regOf_of_lt ha] using execPop_of_lt s ha
  | call ra =>
    have ha : ra.toNat < 8 := by simpa [firstBadIndex, checkedIndices] using h
    simpa [exec, effect, regOf_of_lt ha] using execCall_of_lt s ha
  | ret => exact execRet_eq s
  | cmp ra rb =>
    have ⟨ha, hb⟩ : ra.toNat < 8 ∧ rb.toNat < 8 := by simpa [firstBadIndex, checkedIndices] using h
    simpa [exec, effect, regOf_of_lt ha, regOf_of_lt hb] using execCmp_of_lt s ha hb
  | jmp ra =>
    have ha : ra.toNat < 8 := by simpa [firstBadIndex, checkedIndices] using h
    simpa [exec, execJmp, effect, regOf_of_lt ha] using jumpIf_taken s (Instr.jmp ra).opcode ha
  | jeq ra =>
    cases hf : s.flag with
    | true =>
      have ha : ra.toNat < 8 := by simpa [firstBadIndex, checkedIndices, hf] using h
      simpa [exec, execJeq, effect, hf, regOf_of_lt ha] using jumpIf_taken s (Instr.jeq ra).opcode ha
    | false => simp [exec, execJeq, effect, hf, jumpIf]
  | jne ra =>
    cases hf : s.flag with
    | false =>
      have ha : ra.toNat < 8 := by simpa [firstBadIndex, checkedIndices, hf] using h
      simpa [exec, execJne, effect, hf, regOf_of_lt ha] using jumpIf_taken s (Instr.jne ra).opcode ha
    | true => simp [exec, execJne, effect, hf, jumpIf]
  | hlt => rfl

/-! ### What a step can do -/

/-- Every way a step of a running controller ends, guards included: a fetch that fails, an unknown op-code, a bad register
index, or the handler's effect. -/
theorem step_cases {s : State} (hr : s.run = .running) :
    (256 ≤ s.pc.toNat ∧ step s = raise s (memOutOfRangeRecord s none s.pc)) ∨
    ((s.pc.toNat = 254 ∨ s.pc.toNat = 255) ∧
      step s = raise s (memOutOfRangeRecord s (some (s.mem.read s.pc.toNat)) 256#9)) ∨
    (∃ opcode a b, s.Fetches opcode a b ∧ (∀ row ∈ opcodeTable, row.opcode ≠ opcode) ∧
      step s = raise s (unknownInstructionRecord s opcode)) ∨
    (∃ opcode a b i index, s.Fetches opcode a b ∧ decode opcode a b = .ok i ∧ firstBadIndex i s.flag = some index ∧
      step s = raise s (regOutOfRangeRecord s opcode index)) ∨
    (∃ opcode a b i, s.Fetches opcode a b ∧ decode opcode a b = .ok i ∧ firstBadIndex i s.flag = none ∧
      step s = .next (effect i s)) := by
  by_cases hgt : 256 ≤ s.pc.toNat
  · exact .inl ⟨hgt, by simp [step, hr, fetchDecode, fetch_of_gt hgt]⟩
  by_cases hend : s.pc.toNat = 254 ∨ s.pc.toNat = 255
  · exact .inr (.inl ⟨hend, by simp [step, hr, fetchDecode, fetch_of_end hend]⟩)
  have hf := State.fetches_of_le hr (by omega : s.pc.toNat ≤ 253)
  right; right
  generalize s.mem.read s.pc.toNat = opcode, s.mem.read (s.pc.toNat + 1) = a, s.mem.read (s.pc.toNat + 2) = b at hf
  rcases decode_cases opcode a b with ⟨row, -, -, hd⟩ | ⟨hnone, hd⟩
  · right
    have hstep : step s = exec (row.build a b) s := by simp [step, hr, fetchDecode_of_ok hf hd]
    cases hbad : firstBadIndex (row.build a b) s.flag with
    | some index =>
      refine .inl ⟨opcode, a, b, _, index, hf, hd, hbad, ?_⟩
      rw [hstep, exec_of_badIndex hbad, opcode_of_decode hd]
    | none => exact .inr ⟨opcode, a, b, _, hf, hd, hbad, by rw [hstep, exec_of_goodIndex hbad]⟩
  · exact .inl ⟨opcode, a, b, hf, hnone, by simp [step, hr, fetchDecode_of_unknown hf hd]⟩

/-- The same, for a state whose latched bytes are known. -/
theorem State.Fetches.step_cases {s : State} {opcode a b : Byte} (h : s.Fetches opcode a b) :
    ((∀ row ∈ opcodeTable, row.opcode ≠ opcode) ∧ step s = raise s (unknownInstructionRecord s opcode)) ∨
    ∃ i, decode opcode a b = .ok i ∧
      ((∃ index, firstBadIndex i s.flag = some index ∧ step s = raise s (regOutOfRangeRecord s opcode index)) ∨
        (firstBadIndex i s.flag = none ∧ step s = .next (effect i s))) := by
  have hpc := h.pcLe
  rcases Machine.step_cases h.running with ⟨_, _⟩ | ⟨_, _⟩ | ⟨_, _, _, hf, hn, hs⟩ | ⟨_, _, _, i, x, hf, hd, hbad, hs⟩ |
    ⟨_, _, _, i, hf, hd, hbad, hs⟩
  · omega
  · omega
  · obtain ⟨rfl, rfl, rfl⟩ := h.unique hf; exact .inl ⟨hn, hs⟩
  · obtain ⟨rfl, rfl, rfl⟩ := h.unique hf; exact .inr ⟨i, hd, .inl ⟨x, hbad, hs⟩⟩
  · obtain ⟨rfl, rfl, rfl⟩ := h.unique hf; exact .inr ⟨i, hd, .inr ⟨hbad, hs⟩⟩

/-- The step of a stopped controller (40_fetch_decode_execute.md R106). -/
theorem step_of_stopped {s : State} (h : s.run ≠ .running) : step s = .next s := by
  cases hr : s.run <;> simp_all [step, idle]

end Sys2Proof.Machine
end

