-- ==== Sys2Proof/Laws/Interface.lean ====
section
/-! SUPPORT. What the memory port's read and write transactions say (40_fetch_decode_execute.md R110). -/

namespace Sys2Proof.Machine

/-- An address that passed the range check (20_memory.md R53) is the one its 8 port bits name. -/
theorem portAddress_setWidth {addr : Address} (h : addr.toNat < 256) : (addr.setWidth 8).setWidth 9 = addr := by
  apply BitVec.eq_of_toNat_eq
  simp only [BitVec.toNat_setWidth]
  omega

/-- A read transaction carries the value of the cell it names. -/
theorem memRead_of_mem_readAccesses {s : State} {addrs : List Address} {addr data : Byte}
    (h : MemAccess.read addr data ∈ readAccesses s addrs) : s.memRead (addr.setWidth 9) = some data := by
  induction addrs with
  | nil => cases h
  | cons a rest ih =>
    unfold readAccesses at h
    cases hr : s.memRead a with
    | none => simp [hr] at h
    | some d =>
      simp only [hr, List.mem_cons, MemAccess.read.injEq] at h
      rcases h with ⟨rfl, rfl⟩ | h
      · have ha : a.toNat < 256 := by
          by_contra hge
          rw [State.memRead_of_ge s (by omega)] at hr
          cases hr
        rw [portAddress_setWidth ha, hr]
      · exact ih h

/-- Read transactions change nothing. -/
theorem foldl_readAccesses (s t : State) (addrs : List Address) :
    (readAccesses s addrs).foldl MemAccess.apply t = t := by
  induction addrs generalizing t with
  | nil => rfl
  | cons a rest ih =>
    unfold readAccesses
    cases s.memRead a <;> simp [MemAccess.apply, ih]

/-- A write at a stack pointer is one transaction (20_memory.md R54). -/
theorem writeAccesses_spAddr (s t : State) (data : Byte) :
    writeAccesses s t.spAddr data = [.write (t.spAddr.setWidth 8) data] := by
  simp [writeAccesses, State.memWrite_of_lt _ _ t.spAddr_lt]

/-- A write transaction at a stack pointer stores its byte in the cell the stack pointer names. -/
theorem apply_write_spAddr (s t : State) (data : Byte) :
    MemAccess.apply s (.write (t.spAddr.setWidth 8) data) = s.store t.spAddr data := by
  rw [MemAccess.apply, portAddress_setWidth t.spAddr_lt]

end Sys2Proof.Machine
end

