-- ==== Sys2Proof/Laws/PerInstr.lean ====
section
/-! SUPPORT. Laws stated instruction by instruction, one lemma per constructor. -/

namespace Sys2Proof.Laws.EncodedWidth

/-- The encoding of the instruction has the width that the two most significant bits of its op-code give (30_encoding.md
R71, R72). -/
def Statement (i : Instr) : Prop := (encode i).length = widthOf i.opcode

theorem ldi (ra imm8 : Byte) : Statement (.ldi ra imm8) := by
  simp [Statement, encode, widthOf, Instr.opcode, Instr.operandBytes]
theorem prn (ra : Byte) : Statement (.prn ra) := by
  simp [Statement, encode, widthOf, Instr.opcode, Instr.operandBytes]
theorem add (ra rb : Byte) : Statement (.add ra rb) := by
  simp [Statement, encode, widthOf, Instr.opcode, Instr.operandBytes]
theorem mul (ra rb : Byte) : Statement (.mul ra rb) := by
  simp [Statement, encode, widthOf, Instr.opcode, Instr.operandBytes]
theorem push (ra : Byte) : Statement (.push ra) := by
  simp [Statement, encode, widthOf, Instr.opcode, Instr.operandBytes]
theorem pop (ra : Byte) : Statement (.pop ra) := by
  simp [Statement, encode, widthOf, Instr.opcode, Instr.operandBytes]
theorem call (ra : Byte) : Statement (.call ra) := by
  simp [Statement, encode, widthOf, Instr.opcode, Instr.operandBytes]
theorem ret : Statement .ret := by
  simp [Statement, encode, widthOf, Instr.opcode, Instr.operandBytes]
theorem cmp (ra rb : Byte) : Statement (.cmp ra rb) := by
  simp [Statement, encode, widthOf, Instr.opcode, Instr.operandBytes]
theorem jmp (ra : Byte) : Statement (.jmp ra) := by
  simp [Statement, encode, widthOf, Instr.opcode, Instr.operandBytes]
theorem jeq (ra : Byte) : Statement (.jeq ra) := by
  simp [Statement, encode, widthOf, Instr.opcode, Instr.operandBytes]
theorem jne (ra : Byte) : Statement (.jne ra) := by
  simp [Statement, encode, widthOf, Instr.opcode, Instr.operandBytes]
theorem hlt : Statement .hlt := by
  simp [Statement, encode, widthOf, Instr.opcode, Instr.operandBytes]

end Sys2Proof.Laws.EncodedWidth
end

