-- ==== Sys2Proof/Tests/Slice0.lean ====
section
/-! SUPPORT. Tests. Expected results come from spec/95_test_vectors.md (V1 to V58, S1 to S8) and from the binary column of
30_encoding.md R72; the witnesses at the end meet the hypotheses of the statements in Certificates/Slice0/Obligations.lean. -/

namespace Sys2Proof.Tests

open Sys2Proof.Machine

/-- The reset state with some bytes at `pc`, and `PC` there. -/
def codeAt (pc : Nat) (bytes : List Byte) : State :=
  { State.reset with mem := Memory.writeBytes bytes pc [], pc := BitVec.ofNat 9 pc }

/-- The next state of an outcome. -/
def nextOf : Result → Option State
  | .next t => some t
  | .fault _ => none
  | .refused _ => none

/-- One field, or some, of the state after a step. -/
def after {α : Type} (s : State) (f : State → α) : Option α := (nextOf (step s)).map f

/-! ### Well-formed instructions: each check refuses an ill-formed term -/

theorem test_wellFormed_accepts : (Instr.ldi 7 255).wellFormed = true ∧ (Instr.add 0 7).wellFormed = true := by decide
theorem test_wellFormed_ldi : (Instr.ldi 8 0).wellFormed = false := by decide
theorem test_wellFormed_prn : (Instr.prn 8).wellFormed = false := by decide
theorem test_wellFormed_add : (Instr.add 8 0).wellFormed = false ∧ (Instr.add 0 8).wellFormed = false := by decide
theorem test_wellFormed_mul : (Instr.mul 8 0).wellFormed = false ∧ (Instr.mul 0 8).wellFormed = false := by decide
theorem test_wellFormed_push : (Instr.push 8).wellFormed = false := by decide
theorem test_wellFormed_pop : (Instr.pop 255).wellFormed = false := by decide
theorem test_wellFormed_call : (Instr.call 9).wellFormed = false := by decide
theorem test_wellFormed_cmp : (Instr.cmp 8 0).wellFormed = false ∧ (Instr.cmp 0 8).wellFormed = false := by decide
theorem test_wellFormed_jmp : (Instr.jmp 8).wellFormed = false := by decide
theorem test_wellFormed_jeq : (Instr.jeq 9).wellFormed = false := by decide
theorem test_wellFormed_jne : (Instr.jne 9).wellFormed = false := by decide

/-! ### Decoding: a word of each instruction, bit by bit from R72 -/

theorem test_decode_ldi : decodeTableWord 24 0b11111111_00000010_10000010 = some (.ldi 2 255) := by decide
theorem test_decode_prn : decodeTableWord 16 0b00000111_01000111 = some (.prn 7) := by decide
theorem test_decode_add : decodeTableWord 24 0b00000001_00000000_10100000 = some (.add 0 1) := by decide
theorem test_decode_mul : decodeTableWord 24 0b00000001_00000000_10100010 = some (.mul 0 1) := by decide
theorem test_decode_push : decodeTableWord 16 0b00000011_01000101 = some (.push 3) := by decide
theorem test_decode_pop : decodeTableWord 16 0b00000001_01000110 = some (.pop 1) := by decide
theorem test_decode_call : decodeTableWord 16 0b00000001_01010000 = some (.call 1) := by decide
theorem test_decode_ret : decodeTableWord 8 0b00010001 = some .ret := by decide
theorem test_decode_cmp : decodeTableWord 24 0b00000010_00000000_10100111 = some (.cmp 0 2) := by decide
theorem test_decode_jmp : decodeTableWord 16 0b00000011_01010100 = some (.jmp 3) := by decide
theorem test_decode_jeq : decodeTableWord 16 0b00001001_01010101 = some (.jeq 9) := by decide
theorem test_decode_jne : decodeTableWord 16 0b00000011_01010110 = some (.jne 3) := by decide
theorem test_decode_hlt : decodeTableWord 8 0b00000001 = some .hlt := by decide
theorem test_decode_illegal : decodeTableWord 8 0b11111111 = none ∧ decodeTableWord 8 0 = none := by decide
theorem test_table_rows_do_not_overlap : opcodeTable.Pairwise (fun r q => r.opcode ≠ q.opcode) := by decide
theorem test_table_widths : ∀ r ∈ opcodeTable, r.format.width = widthOf r.opcode := by decide

/-! ### Fetch and decode faults (V1 to V11) -/

theorem test_v1_fetch_at_256 :
    after { State.reset with pc := 256 } (fun t => (t.run, t.fault)) =
      some (.terminated, some ⟨.addressOutOfRange, 256, none, some .mem, some 256, none⟩) := by decide
theorem test_v2_hlt_at_255 :
    after (codeAt 255 [0x01]) (fun t => (t.run, t.fault)) =
      some (.terminated, some ⟨.addressOutOfRange, 255, some 0x01, some .mem, some 256, none⟩) := by decide
theorem test_v5_illegal_at_255 :
    after (codeAt 255 [0xFF]) (fun t => t.fault.map (fun r => r.kind)) = some (some .addressOutOfRange) := by decide
theorem test_v6_zero_is_illegal :
    after State.reset (fun t => (t.run, t.pc, t.fault)) =
      some (.terminated, 0, some ⟨.unknownInstruction, 0, some 0x00, none, none, none⟩) := by decide

/-! ### One step per instruction -/

theorem test_v12_ldi : after (codeAt 0 [0x82, 0x02, 0xFF]) (fun t => (t.reg 2, t.pc)) = some (255, 3) := by decide
theorem test_v7_ldi_bad_index :
    after (codeAt 0 [0x82, 0x08, 0x01]) (fun t => (t.regs, t.fault)) =
      some (State.reset.regs, some ⟨.addressOutOfRange, 0, some 0x82, some .reg, some 8, none⟩) := by decide
theorem test_v15_prn : after (codeAt 9 [0x47, 0x07]) (fun t => (t.out, t.pc)) = some ([244], 11) := by decide
theorem test_v16_prn_bad_index : after (codeAt 0 [0x47, 0x08]) (fun t => (t.out, t.run)) = some ([], .terminated) := by decide
theorem test_v17_add :
    after (((codeAt 0 [0xA0, 0x00, 0x01]).setReg 0 250).setReg 1 10) (fun t => (t.reg 0, t.reg 1, t.pc)) =
      some (4, 10, 3) := by decide
theorem test_v9_add_bad_indices :
    after (codeAt 0 [0xA0, 0x09, 0x0A]) (fun t => t.fault.map (fun r => r.addr)) = some (some (some 9)) := by decide
theorem test_mulEmits_default : mulEmits = false := by decide
theorem test_v24_mul :
    after (((codeAt 0 [0xA2, 0x00, 0x01]).setReg 0 15).setReg 1 17) (fun t => (t.reg 0, t.out)) = some (255, []) := by decide
theorem test_v21_mul_emitting :
    (nextOf (mulWith true 0 1 ((State.reset.setReg 0 8).setReg 1 9))).map (fun t => (t.reg 0, t.out)) =
      some (72, [72]) := by decide
theorem test_v29_push_wraps :
    after (((codeAt 0 [0x45, 0x00]).setReg 7 0).setReg 0 0xAB) (fun t => (t.reg 7, t.memRead 0xFF)) =
      some (0xFF, some 0xAB) := by decide
theorem test_v30_push_r7 : after (codeAt 0 [0x45, 0x07]) (fun t => (t.reg 7, t.memRead 0xF3)) = some (0xF3, some 0xF3) := by
  decide
theorem test_v31_pop :
    after (((codeAt 0 [0x46, 0x01]).store 0xF3 42).setReg 7 0xF3) (fun t => (t.reg 1, t.reg 7, t.memRead 0xF3)) =
      some (42, 0xF4, some 42) := by decide
theorem test_v33_pop_r7 :
    after (((codeAt 0 [0x46, 0x07]).store 0xF3 0x10).setReg 7 0xF3) (fun t => t.reg 7) = some 0x11 := by decide
theorem test_v36_call :
    after ((codeAt 3 [0x50, 0x01]).setReg 1 8) (fun t => (t.pc, t.reg 7, t.memRead 0xF3)) = some (8, 0xF3, some 5) := by decide
theorem test_v37_call_r7 :
    after (codeAt 0 [0x50, 0x07]) (fun t => (t.pc, t.reg 7, t.memRead 0xF3)) = some (0xF3, 0xF3, some 2) := by decide
theorem test_v40_ret :
    after (((codeAt 0 [0x11]).store 0xF3 5).setReg 7 0xF3) (fun t => (t.pc, t.reg 7)) = some (5, 0xF4) := by decide
theorem test_v42_ret_wraps :
    after (((codeAt 0 [0x11]).store 0xFF 7).setReg 7 0xFF) (fun t => (t.pc, t.reg 7)) = some (7, 0) := by decide
theorem test_v44_cmp_equal :
    after (((codeAt 20 [0xA7, 0x00, 0x02]).setReg 0 3).setReg 2 3) (fun t => (t.flag, t.pc)) = some (true, 23) := by decide
theorem test_v46_cmp_unequal :
    after (((codeAt 20 [0xA7, 0x00, 0x01]).setReg 1 255).setFlag true) (fun t => t.flag) = some false := by decide
theorem test_v47_jmp : after ((codeAt 20 [0x54, 0x03]).setReg 3 12) (fun t => t.pc) = some 12 := by decide
theorem test_v49_jeq_taken :
    after (((codeAt 20 [0x55, 0x03]).setReg 3 12).setFlag true) (fun t => t.pc) = some 12 := by decide
theorem test_v53_jeq_unchecked : after (codeAt 20 [0x55, 0x09]) (fun t => (t.pc, t.run)) = some (22, .running) := by decide
theorem test_v51_jne_taken : after ((codeAt 20 [0x56, 0x03]).setReg 3 12) (fun t => t.pc) = some 12 := by decide
theorem test_v52_jne_not_taken : after ((codeAt 20 [0x56, 0x03]).setFlag true) (fun t => t.pc) = some 22 := by decide
theorem test_v57_hlt : after (codeAt 11 [0x01]) (fun t => (t.run, t.pc, t.fault)) = some (.halted, 11, none) := by decide
theorem test_v10_hlt_ignores_operands : after (codeAt 0 [0x01, 0xFF, 0xFF]) (fun t => t.run) = some .halted := by decide

/-! ### Text forms (R80, R82; the lines of program P1) -/

theorem test_assembly : (Instr.ldi 0 8).assembly = "LDI R0,8" ∧ (Instr.mul 0 1).assembly = "MUL R0,R1" := by decide
theorem test_image_text :
    parseImage ["10000010 # LDI R0,8".toList, "# no byte".toList, "00000000".toList, "00001000".toList] =
      some [0x82, 0x00, 0x08] := by decide
theorem test_image_text_malformed : parseImage ["1000001".toList] = none := by decide

/-! ### Witnesses: the hypotheses of each statement are met, clause by clause, at the ends of their ranges -/

theorem witness_EncodingAndDecodingAgree : decodeBytes [0x45, 0xFF, 0x00] = .ok (.push 255) := by rfl

theorem witness_Fetches_lowest : (codeAt 0 [0xFF]).Fetches 0xFF 0 0 :=
  ⟨rfl, by decide, by decide, by decide, by decide⟩

theorem witness_Fetches_highest : (codeAt 253 [0x01]).Fetches 0x01 0 0 :=
  ⟨rfl, by decide, by decide, by decide, by decide⟩

/-- For IllegalOpcodesRaiseUnknownInstruction: illegal 0x00 and 0xFF, fetched; legal 0x01, which decodes. -/
theorem witness_IllegalOpcodesRaiseUnknownInstruction :
    (codeAt 0 [0x00]).Fetches 0x00 0 0 ∧ (codeAt 0 [0xFF]).Fetches 0xFF 0 0 ∧
      decode 0x00 0 0 = .error (.unknownInstruction 0x00) ∧ decode 0x01 0 0 = .ok .hlt :=
  ⟨⟨rfl, by decide, by decide, by decide, by decide⟩, witness_Fetches_lowest, rfl, rfl⟩

theorem witness_OpcodeTopBitsGiveTheWidth : decode 0x82 255 255 = .ok (.ldi 255 255) ∧ decode 0x01 0 0 = .ok .hlt :=
  ⟨rfl, rfl⟩

theorem witness_BytesPastTheWidthAreIgnored :
    (decode 0x47 0 9 = .ok (.prn 0) ∧ (encode (.prn 0)).length ≤ 2) ∧
      (decode 0x11 9 9 = .ok .ret ∧ (encode .ret).length ≤ 1) := ⟨⟨rfl, by decide⟩, ⟨rfl, by decide⟩⟩

theorem witness_StepRunsTheDecodedInstruction :
    (codeAt 253 [0x01]).Fetches 0x01 0 0 ∧ decode 0x01 0 0 = .ok .hlt := ⟨witness_Fetches_highest, rfl⟩

/-- The invariant holds with `PC` at 256. -/
theorem witness_Inv_at_256 : ({ State.reset with pc := 256 } : State).Inv :=
  ⟨⟨List.Pairwise.nil, by simp [State.reset]⟩, by decide, by decide, by simp [State.reset]⟩

theorem witness_OpcodeFetchReadsPcOrRaises :
    fetch (codeAt 253 [0x01]) = .ok ⟨0x01, 0, 0⟩ ∧
      ({ State.reset with pc := 256 } : State).run = .running ∧ 255 < (256 : Address).toNat ∧
      ({ State.reset with pc := 256 } : State).Inv := ⟨rfl, rfl, by decide, witness_Inv_at_256⟩

theorem witness_LookaheadFaultsAtTheEndOfMemory :
    ((codeAt 254 [0x01]).run = .running ∧ (codeAt 254 [0x01]).pc = 254 ∧ (codeAt 254 [0x01]).memRead 254 = some 0x01) ∧
      ((codeAt 255 [0x82]).run = .running ∧ (codeAt 255 [0x82]).pc = 255 ∧ (codeAt 255 [0x82]).memRead 255 = some 0x82) := by
  decide

theorem witness_StoppedMachineNeverChanges :
    State.reset.halt.run ≠ .running ∧ (State.reset.takeFault (unknownInstructionRecord State.reset 0)).run ≠ .running := by
  decide

/-- For PcAfterAStep: each clause's op-code, fetched, with a step that goes on as the clause says; LDI and PRN at the
highest address they can be fetched at. -/
theorem witness_PcAfterAStep_terminated : after State.reset (fun t => t.run) = some .terminated := by decide
theorem witness_PcAfterAStep_width3 :
    (codeAt 253 [0x82, 0, 9]).Fetches 0x82 0 9 ∧ after (codeAt 253 [0x82, 0, 9]) (fun t => (t.run, t.pc)) = some (.running, 256) :=
  ⟨⟨rfl, by decide, by decide, by decide, by decide⟩, by decide⟩
theorem witness_PcAfterAStep_width2 :
    (codeAt 253 [0x47, 0]).Fetches 0x47 0 0 ∧ after (codeAt 253 [0x47, 0]) (fun t => (t.run, t.pc)) = some (.running, 255) :=
  ⟨⟨rfl, by decide, by decide, by decide, by decide⟩, by decide⟩
theorem witness_PcAfterAStep_notTaken :
    (codeAt 0 [0x55, 255]).Fetches 0x55 255 0 ∧ after (codeAt 0 [0x55, 255]) (fun t => (t.run, t.pc)) = some (.running, 2) :=
  ⟨⟨rfl, by decide, by decide, by decide, by decide⟩, by decide⟩
theorem witness_PcAfterAStep_taken :
    (codeAt 0 [0x56, 7]).Fetches 0x56 7 0 ∧ after (codeAt 0 [0x56, 7]) (fun t => (t.run, t.pc)) = some (.running, 244) :=
  ⟨⟨rfl, by decide, by decide, by decide, by decide⟩, by decide⟩
theorem witness_PcAfterAStep_ret :
    (codeAt 9 [0x11]).Fetches 0x11 0 0 ∧ after (codeAt 9 [0x11]) (fun t => (t.run, t.pc)) = some (.running, 0) :=
  ⟨⟨rfl, by decide, by decide, by decide, by decide⟩, by decide⟩
theorem witness_PcAfterAStep_hlt :
    (codeAt 253 [0x01]).Fetches 0x01 0 0 ∧ after (codeAt 253 [0x01]) (fun t => t.pc) = some 253 :=
  ⟨witness_Fetches_highest, by decide⟩

theorem witness_FirstBadRegisterIndexIsRaised :
    firstBadIndex (.add 8 255) false = some 8 ∧ firstBadIndex (.add 7 255) false = some 255 ∧
      firstBadIndex (.jeq 9) false = none ∧ firstBadIndex (.add 7 7) false = none := by decide

/-- For FaultEntryDoesNothingElse and UnsupportedOperationIsNeverRaised: a running state whose step ends TERMINATED, with a
record. -/
theorem witness_FaultEntryDoesNothingElse :
    State.reset.run = .running ∧
      ∃ t r, step State.reset = .next t ∧ t.run = .terminated ∧ t.fault = some r := ⟨rfl, _, _, rfl, rfl, rfl⟩

theorem witness_UnsupportedOperationIsNeverRaised :
    State.reset.run = .running ∧
      ∃ t r, step State.reset = .next t ∧ t.run = .terminated ∧ t.fault = some r := witness_FaultEntryDoesNothingElse

theorem witness_StepTerminatesExactlyOnAFatalCondition : State.reset.run = .running := rfl

theorem witness_WellFormedInstructionsDoNotFault : WellFormed (.add 7 0) ∧ State.reset.run = .running := by decide

/-- For the statements about one instruction: the operand bytes 7 and 8 stand at the two ends of their clauses. -/
theorem witness_register_bytes : (7 : Byte).toNat < 8 ∧ 8 ≤ (8 : Byte).toNat := by decide

theorem witness_LdiWritesTheImmediate :
    ((7 : Byte).toNat < 8 ∧ (nextOf (exec (.ldi 7 9) State.reset)).map (fun t => (t.reg 7, t.run)) = some (9, .running)) ∧
      (8 ≤ (8 : Byte).toNat ∧ (nextOf (exec (.ldi 8 9) State.reset)).map (fun t => t.run) = some .terminated) := by decide
theorem witness_PrnEmitsTheRegister :
    ((7 : Byte).toNat < 8 ∧ (nextOf (exec (.prn 7) State.reset)).map (fun t => t.out) = some [244]) ∧
      (8 ≤ (8 : Byte).toNat ∧ (nextOf (exec (.prn 8) State.reset)).map (fun t => t.run) = some .terminated) := by decide
theorem witness_AddIsModulo256 :
    ((7 : Byte).toNat < 8 ∧ (nextOf (exec (.add 7 7) State.reset)).map (fun t => t.reg 7) = some 232) ∧
      (8 ≤ (8 : Byte).toNat ∧ (nextOf (exec (.add 8 0) State.reset)).map (fun t => t.run) = some .terminated) ∧
      (nextOf (exec (.add 7 8) State.reset)).map (fun t => t.run) = some .terminated := by decide
theorem witness_MulIsModulo256 :
    ((7 : Byte).toNat < 8 ∧ (nextOf (exec (.mul 7 7) State.reset)).map (fun t => t.reg 7) = some 144) ∧
      (8 ≤ (8 : Byte).toNat ∧ (nextOf (exec (.mul 8 0) State.reset)).map (fun t => t.run) = some .terminated) ∧
      (nextOf (exec (.mul 7 8) State.reset)).map (fun t => t.run) = some .terminated := by decide
theorem witness_MulEmitsOnlyUnderItsParameter :
    (7 : Byte).toNat < 8 ∧ (nextOf (mulWith true 7 7 State.reset)).map (fun t => t.out) = some [144] ∧
      (nextOf (mulWith false 7 7 State.reset)).map (fun t => t.out) = some [] := by decide
theorem witness_PushStoresBelowTheStackPointer :
    ((7 : Byte).toNat < 8 ∧ (nextOf (exec (.push 7) State.reset)).map (fun t => t.memRead 243) = some (some 243)) ∧
      (8 ≤ (8 : Byte).toNat ∧ (nextOf (exec (.push 8) State.reset)).map (fun t => t.run) = some .terminated) := by decide
theorem witness_PopLoadsFromTheStackPointer :
    ((7 : Byte).toNat < 8 ∧ (nextOf (exec (.pop 7) State.reset)).map (fun t => t.reg 7) = some 1) ∧
      ((6 : Byte).toNat < 8 ∧ (nextOf (exec (.pop 6) State.reset)).map (fun t => t.reg 7) = some 245) ∧
      (8 ≤ (8 : Byte).toNat ∧ (nextOf (exec (.pop 8) State.reset)).map (fun t => t.run) = some .terminated) := by decide
theorem witness_PushThenPopRestores :
    (7 : Byte).toNat < 8 ∧ ∃ t, exec (.push 7) State.reset = .next t ∧ ∃ t' : State, t'.reg 7 = t.reg 7 ∧
      t'.memRead t.spAddr = t.memRead t.spAddr := ⟨by decide, _, rfl, _, rfl, rfl⟩
/-- The pushed byte lands at the `PC` after the PUSH (program P7). -/
theorem witness_PushedByteIsFetchedNext :
    (0 : Byte).toNat < 8 ∧ (nextOf (exec (.push 0) ((codeAt 6 [0x45]).setReg 7 9))).map
      (fun t => (decide (t.pc = ((codeAt 6 [0x45]).setReg 7 9).decSp.spAddr), decide (t.pc.toNat ≤ 253))) =
      some (true, true) := by decide
theorem witness_CallPushesTheReturnAddress :
    ((7 : Byte).toNat < 8 ∧ (codeAt 253 []).pc.toNat ≤ 253 ∧
        (nextOf (exec (.call 7) (codeAt 253 []))).map (fun t => (t.pc, t.memRead 243)) = some (243, some 255)) ∧
      (8 ≤ (8 : Byte).toNat ∧ (nextOf (exec (.call 8) State.reset)).map (fun t => t.run) = some .terminated) := by decide
theorem witness_CallThenRetReturns :
    (7 : Byte).toNat < 8 ∧ (codeAt 253 []).pc.toNat ≤ 253 ∧ ∃ t, exec (.call 7) (codeAt 253 []) = .next t ∧
      ∃ t' : State, t'.reg 7 = t.reg 7 ∧ t'.memRead t.spAddr = t.memRead t.spAddr :=
  ⟨by decide, by decide, _, rfl, _, rfl, rfl⟩
theorem witness_CmpSetsTheFlagOnEquality :
    ((7 : Byte).toNat < 8 ∧ (nextOf (exec (.cmp 7 7) State.reset)).map (fun t => t.flag) = some true) ∧
      (8 ≤ (8 : Byte).toNat ∧ (nextOf (exec (.cmp 8 0) State.reset)).map (fun t => t.run) = some .terminated) ∧
      (nextOf (exec (.cmp 7 8) State.reset)).map (fun t => t.run) = some .terminated ∧
      (nextOf (step State.reset)).isSome := by decide
theorem witness_JmpGoesToTheRegister :
    ((7 : Byte).toNat < 8 ∧ (nextOf (exec (.jmp 7) State.reset)).map (fun t => t.pc) = some 244) ∧
      (8 ≤ (8 : Byte).toNat ∧ (nextOf (exec (.jmp 8) State.reset)).map (fun t => t.run) = some .terminated) := by decide
theorem witness_JeqJumpsWhenTheFlagIsSet :
    ((State.reset.setFlag true).flag = true ∧ (7 : Byte).toNat < 8 ∧
        (nextOf (exec (.jeq 7) (State.reset.setFlag true))).map (fun t => t.pc) = some 244) ∧
      (8 ≤ (8 : Byte).toNat ∧
        (nextOf (exec (.jeq 8) (State.reset.setFlag true))).map (fun t => t.run) = some .terminated) ∧
      (State.reset.flag = false ∧ (nextOf (exec (.jeq 8) State.reset)).map (fun t => t.pc) = some 2) := by decide
theorem witness_JneJumpsWhenTheFlagIsClear :
    (State.reset.flag = false ∧ (7 : Byte).toNat < 8 ∧
        (nextOf (exec (.jne 7) State.reset)).map (fun t => t.pc) = some 244) ∧
      (8 ≤ (8 : Byte).toNat ∧ (nextOf (exec (.jne 8) State.reset)).map (fun t => t.run) = some .terminated) ∧
      ((State.reset.setFlag true).flag = true ∧
        (nextOf (exec (.jne 8) (State.reset.setFlag true))).map (fun t => t.pc) = some 2) := by decide

/-- A step of CMP that changes FLAG, and an instruction that does not read it. -/
theorem witness_OnlyCmpWritesAndOnlyJumpsReadTheFlag :
    (∃ t, step (codeAt 0 [0xA7, 0, 0]) = .next t ∧ t.flag ≠ (codeAt 0 [0xA7, 0, 0]).flag) ∧ (7 : Byte).toNat < 8 ∧
      (∀ ra, Instr.ret ≠ .jeq ra ∧ Instr.ret ≠ .jne ra) :=
  ⟨⟨_, rfl, by decide⟩, by decide, fun _ => ⟨by simp, by simp⟩⟩

theorem witness_OnlyHltEntersHalted :
    (codeAt 253 [0x01]).run = .running ∧ ∃ t, step (codeAt 253 [0x01]) = .next t ∧ t.run = .halted := ⟨rfl, _, rfl, rfl⟩

theorem witness_HaltedRunsDoNotDependOnFuel :
    (∃ t, runToHalt 1 (codeAt 0 [0x01]) = some (t, 1)) ∧ (∃ t, runToHalt 0 State.reset.halt = some (t, 0)) :=
  ⟨⟨_, rfl⟩, ⟨_, rfl⟩⟩

theorem witness_OnlyPrnAndMulEmit : ∃ t, step (codeAt 0 [0x47, 7]) = .next t ∧ t.out ≠ (codeAt 0 [0x47, 7]).out :=
  ⟨_, rfl, by decide⟩

theorem witness_EmittedEventsAreNeverTakenBack : ∃ t, Host.Core.run Sys2Proof.core 1 State.reset = .next t := ⟨_, rfl⟩

theorem witness_MemoryPortChecksTheRange : 255 < (256 : Address).toNat ∧ (255 : Address).toNat ≤ 255 := by decide

theorem witness_CanonicalMemoriesWithEqualReadsAreEqual :
    Memory.wf [(0, 1), (255, 2)] ∧ ∀ a : Nat, a < 256 → Memory.read [(0, 1), (255, 2)] a = Memory.read [(0, 1), (255, 2)] a :=
  ⟨by decide, fun _ _ => rfl⟩

theorem witness_OnlyPushAndCallWriteMemory :
    ∃ t, step (codeAt 0 [0x45, 7]) = .next t ∧ t.memRead 243 ≠ (codeAt 0 [0x45, 7]).memRead 243 := ⟨_, rfl, by decide⟩

/-- A fetched PUSH with its reads and its write on the port; and the ends of memory, where fewer reads appear. -/
theorem witness_PortTransactionsExplainMemory :
    (∃ t, step (codeAt 0 [0x45, 7]) = .next t) ∧ (codeAt 0 [0x45, 7]).Fetches 0x45 7 0 ∧
      portAccesses (codeAt 0 [0x45, 7]) = [.read 0 0x45, .read 1 7, .read 2 0, .write 243 243] :=
  ⟨⟨_, rfl⟩, ⟨rfl, by decide, by decide, by decide, by decide⟩, by decide⟩
theorem witness_PortTransactionsExplainMemory_ends :
    (codeAt 254 [0x45, 7]).run = .running ∧
      portAccesses (codeAt 254 [0x45, 7]) = [.read 254 0x45, .read 255 7] ∧
      portAccesses (codeAt 255 [0x45]) = [.read 255 0x45] ∧
      portAccesses { State.reset with pc := 256 } = [] ∧ State.reset.halt.run ≠ .running := by decide

theorem witness_RegisterWritesFollowTheTable :
    ∃ t, step (codeAt 0 [0x82, 0, 9]) = .next t ∧ t.reg 0 ≠ (codeAt 0 [0x82, 0, 9]).reg 0 := ⟨_, rfl, by decide⟩

theorem witness_StepKeepsTheInvariant :
    ({ State.reset with pc := 256 } : State).Inv ∧ ∃ t, step { State.reset with pc := 256 } = .next t :=
  ⟨witness_Inv_at_256, _, rfl⟩

theorem witness_ResetValues : (0 : Address).toNat ≤ 255 ∧ (255 : Address).toNat ≤ 255 := by decide

theorem witness_BootLoadsTheImageAtZero :
    (1 ≤ [(0x01 : Byte)].length ∧ [(0x01 : Byte)].length ≤ 256) ∧ (List.replicate 256 (1 : Byte)).length ≤ 256 ∧
      ([] : List Byte).length = 0 ∧ 256 < (List.replicate 257 (1 : Byte)).length :=
  ⟨by decide, Nat.le_of_eq List.length_replicate, rfl, Nat.lt_of_lt_of_eq (by decide) List.length_replicate.symm⟩

theorem witness_FirstStepFetchesAtZero : ∃ t, boot [0x01] State.reset = some t := ⟨_, rfl⟩

theorem witness_EveryLoadedRunKeepsTheInvariant :
    ∃ s, boot [0x01] State.reset = some s ∧ ∃ t, Host.Core.run Sys2Proof.core 1 s = .next t := ⟨_, rfl, _, rfl⟩

theorem witness_FetchWordRuns :
    (codeAt 253 []).pc.toNat ≤ 253 ∧ decodeTableWord 24 0xFF0282 = some (.ldi 2 255) := by decide

theorem witness_HostReadsOnlyAStoppedMachine : State.reset.run = .running ∧ State.reset.halt.run ≠ .running := by decide

end Sys2Proof.Tests
end

section
/-! PROOFS. The one flag (10_state.md R30): who writes it, who reads it, and what does not depend on it. -/

namespace Sys2Proof.Machine

/-! ### Who writes FLAG -/

/-- Fault entry keeps FLAG (60_exceptions.md R205). -/
theorem flag_of_raise {s t : State} {r : FaultRecord} (h : raise s r = .next t) : t.flag = s.flag := by
  obtain rfl : s.takeFault r = t := by simpa [raise] using h
  exact s.takeFault_flag r

/-- The effect of every instruction but CMP keeps FLAG. -/
theorem effect_flag_of_ne_cmp {i : Instr} (s : State) (hi : ∀ ra rb, i ≠ .cmp ra rb) :
    (effect i s).flag = s.flag := by
  cases i with
  | cmp ra rb => exact absurd rfl (hi ra rb)
  | jeq ra => simp only [effect]; split <;> rfl
  | jne ra => simp only [effect]; split <;> rfl
  | mul ra rb => simp [effect]
  | _ => rfl

/-- A step that changes FLAG fetched CMP: a stopped controller and fault entry keep it, and so does every other effect. -/
theorem fetches_cmp_of_step_flag_ne {s t : State} (hs : step s = .next t) (hne : t.flag ≠ s.flag) :
    ∃ a b, s.Fetches 0xA7#8 a b := by
  have hraise : ∀ r, step s ≠ raise s r := fun r e => hne (flag_of_raise (e.symm.trans hs))
  by_cases hr : s.run = .running
  · rcases step_cases hr with ⟨-, e⟩ | ⟨-, e⟩ | ⟨_, _, _, -, -, e⟩ | ⟨_, _, _, _, _, -, -, -, e⟩ |
      ⟨opcode, a, b, i, hf, hd, -, e⟩
    · exact absurd e (hraise _)
    · exact absurd e (hraise _)
    · exact absurd e (hraise _)
    · exact absurd e (hraise _)
    · obtain rfl : effect i s = t := by simpa using e.symm.trans hs
      by_cases hi : ∃ ra rb, i = .cmp ra rb
      · obtain ⟨ra, rb, rfl⟩ := hi
        obtain rfl : 0xA7#8 = opcode := opcode_of_decode hd
        exact ⟨a, b, hf⟩
      · push Not at hi
        exact absurd (effect_flag_of_ne_cmp s hi) hne
  · obtain rfl : s = t := by simpa using (step_of_stopped hr).symm.trans hs
    exact absurd rfl hne

/-- The comparator answers 1 exactly on equality (45_compare_branch.md R160). -/
theorem equalFlag_eq_true_iff {x y : Byte} : equalFlag x y = true ↔ x = y := beq_iff_eq

/-! ### Who reads FLAG -/

/-- A jump through an index that names a register goes to it when taken, and to the next instruction otherwise
(45_compare_branch.md R161 to R163). -/
theorem jumpIf_of_lt (s : State) (opcode : Byte) {ra : Byte} (h : ra.toNat < 8) (taken : Bool) :
    ∃ t, jumpIf s opcode ra taken = .next t ∧
      t.pc = if taken then (s.reg ⟨ra.toNat, h⟩).setWidth 9 else s.pc + 2#9 := by
  cases taken with
  | true => exact ⟨_, jumpIf_taken s opcode h, rfl⟩
  | false => exact ⟨_, jumpIf_not_taken s opcode ra, rfl⟩

/-! ### What does not depend on FLAG -/

section
variable {i : Instr} (hi : ∀ ra, i ≠ .jeq ra ∧ i ≠ .jne ra)
include hi

/-- Only JEQ and JNE check their index depending on FLAG (40_fetch_decode_execute.md R109). -/
theorem firstBadIndex_flag_irrelevant (b c : Bool) : firstBadIndex i b = firstBadIndex i c := by
  cases i with
  | jeq ra => exact absurd rfl (hi ra).1
  | jne ra => exact absurd rfl (hi ra).2
  | _ => rfl

/-- The effect of an instruction that is no conditional jump depends on FLAG in nothing but FLAG. -/
theorem effect_setFlag (s : State) (b : Bool) : (effect i (s.setFlag b)).setFlag (effect i s).flag = effect i s := by
  cases i with
  | jeq ra => exact absurd rfl (hi ra).1
  | jne ra => exact absurd rfl (hi ra).2
  | mul ra rb => simp only [effect]; cases mulEmits <;> rfl
  | _ => rfl

/-- Whether it raises or goes on, an instruction that is no conditional jump does the same whatever FLAG was: the two runs
differ in FLAG alone. -/
theorem exec_setFlag (s : State) (b : Bool) :
    ∃ t u, exec i s = .next t ∧ exec i (s.setFlag b) = .next u ∧ u.setFlag t.flag = t := by
  have hflag := firstBadIndex_flag_irrelevant hi b s.flag
  cases hbad : firstBadIndex i s.flag with
  | some index => exact ⟨_, _, exec_of_badIndex hbad, exec_of_badIndex (hflag.trans hbad), rfl⟩
  | none => exact ⟨_, _, exec_of_goodIndex hbad, exec_of_goodIndex (hflag.trans hbad), effect_setFlag hi s b⟩

end

/-- Settles O37: the writer from `step_cases`, the readers from `jumpIf`, and for every other instruction a comparison of
its two runs, before which only FLAG differs. -/
theorem onlyCmpWritesAndOnlyJumpsReadTheFlag : Obligations.OnlyCmpWritesAndOnlyJumpsReadTheFlag := by
  refine ⟨fun s t => fetches_cmp_of_step_flag_ne, fun s ra rb ha hb => ?cmp, fun s ra h b => ⟨?jeq, ?jne⟩,
    fun i s b hi => exec_setFlag hi s b⟩
  case cmp => exact ⟨_, execCmp_of_lt s ha hb, equalFlag_eq_true_iff⟩
  case jeq => exact jumpIf_of_lt (s.setFlag b) (Instr.jeq ra).opcode h b
  case jne =>
    have hjump := jumpIf_of_lt (s.setFlag b) (Instr.jne ra).opcode h (!b)
    cases b <;> exact hjump

end Sys2Proof.Machine
end

section
/-! PROOFS. The memory port's range check (20_memory.md R53): what a failed access raises, and what a store leaves. -/

namespace Sys2Proof.Machine

/-- The range check (20_memory.md R53), on a write. -/
theorem State.memWrite_of_ge (s : State) {a : Address} (v : Byte) (h : 256 ≤ a.toNat) : s.memWrite a v = none :=
  if_neg (Nat.not_lt.2 h)

/-- An access that failed the range check raises, whatever the handler would have gone on with (20_memory.md R53). -/
@[simp] theorem onPort_none {α : Type} (s : State) (opcode : Byte) (addr : Address) (k : α → Result) :
    onPort s opcode addr none k = raise s (memOutOfRangeRecord s (some opcode) addr) := rfl

/-- After a failed access the step ends in fault entry, with a record that names memory and the address
(60_exceptions.md R202, R204). -/
theorem onPort_none_faults {α : Type} (s : State) (opcode : Byte) (addr : Address) (k : α → Result) :
    ∃ t r, onPort s opcode addr none k = .next t ∧ FaultedWith r s t ∧ MemOutOfRangeAt s (some opcode) addr.toNat r :=
  ⟨_, _, onPort_none s opcode addr k, faultedWith_takeFault s _, memOutOfRangeRecord_at s _ addr⟩

/-- A store changes no other address of the port. -/
theorem State.keepsMemBut_store (s : State) (a : Address) (v : Byte) : KeepsMemBut a s (s.store a v) :=
  fun _ hne => s.memRead_store_other v hne

/-- Settles O41: above 255 both accesses answer `none`, from which the handler raises; up to 255 the written state is
`State.store`. -/
theorem memoryPortChecksTheRange : Obligations.MemoryPortChecksTheRange := by
  refine fun s addr v opcode => ⟨fun habove => ?above, fun hcell => ?cell⟩
  case above =>
    have hread : s.memRead addr = none := s.memRead_of_ge habove
    have hwrite : s.memWrite addr v = none := s.memWrite_of_ge v habove
    rw [hread, hwrite]
    exact ⟨rfl, rfl, onPort_none_faults s opcode addr, onPort_none_faults s opcode addr⟩
  case cell =>
    have hlt : addr.toNat < 256 := Nat.lt_succ_of_le hcell
    exact ⟨⟨_, s.memRead_of_lt hlt⟩, s.store addr v, s.memWrite_of_lt v hlt, s.memRead_store_same v hlt,
      s.keepsMemBut_store addr v, rfl⟩

end Sys2Proof.Machine
end

section
/-! PROOFS. The illegal op-codes (30_encoding.md R78): which they are, and what the step that fetches one does. -/

namespace Sys2Proof.Machine

/-- The 243 values of R78, as the rule lists them. -/
def IllegalOpcode (n : Nat) : Prop :=
  n = 0x00 ∨ (0x02 ≤ n ∧ n ≤ 0x10) ∨ (0x12 ≤ n ∧ n ≤ 0x44) ∨ (0x48 ≤ n ∧ n ≤ 0x4F) ∨
    (0x51 ≤ n ∧ n ≤ 0x53) ∨ (0x57 ≤ n ∧ n ≤ 0x81) ∨ (0x83 ≤ n ∧ n ≤ 0x9F) ∨ n = 0xA1 ∨ (0xA3 ≤ n ∧ n ≤ 0xA6) ∨
    (0xA8 ≤ n ∧ n ≤ 0xFF)

/-- No row of the op-code map (R72) has a value of R78. -/
theorem not_illegalOpcode_of_mem : ∀ row ∈ opcodeTable, ¬ IllegalOpcode row.opcode.toNat := by
  simp [opcodeTable, IllegalOpcode]

/-- A byte that no row of the op-code map (R72) has is a value of R78: the ranges leave out the thirteen only. -/
theorem illegalOpcode_of_no_row {opcode : Byte} (h : ∀ row ∈ opcodeTable, row.opcode ≠ opcode) :
    IllegalOpcode opcode.toNat := by
  have hlt := opcode.isLt
  simp only [opcodeTable, List.forall_mem_cons, ne_eq, ← BitVec.toNat_inj, BitVec.toNat_ofNat] at h
  unfold IllegalOpcode
  omega

/-- A step whose latched bytes the decoder rejects raises UnknownInstruction, with the op-code and `PC`
(40_fetch_decode_execute.md R104). -/
theorem State.Fetches.step_of_rejected {s : State} {opcode a b : Byte} {e : DecodeError} (h : s.Fetches opcode a b)
    (hd : decode opcode a b = .error e) : step s = raise s (unknownInstructionRecord s opcode) := by
  rcases h.step_cases with ⟨-, hs⟩ | ⟨i, hi, -⟩
  · exact hs
  · simp [hd] at hi

/-- Settles O2: an op-code is in the map or in R78's ranges, not in both, and `decode_cases` says what the decoder answers
in each case. -/
theorem illegalOpcodesRaiseUnknownInstruction : Obligations.IllegalOpcodesRaiseUnknownInstruction := by
  intro opcode a b
  change (IllegalOpcode opcode.toNat → _) ∧ (¬ IllegalOpcode opcode.toNat → _)
  rcases decode_cases opcode a b with ⟨row, hrow, rfl, hd⟩ | ⟨hnone, hd⟩
  · exact ⟨fun hill => absurd hill (not_illegalOpcode_of_mem row hrow), fun _ => ⟨_, hd, opcode_of_decode hd⟩⟩
  · refine ⟨fun _ => ⟨hd, fun s hs => ?raises⟩, fun hlegal => absurd (illegalOpcode_of_no_row hnone) hlegal⟩
    exact ⟨_, _, hs.step_of_rejected hd, faultedWith_takeFault s _, unknownInstructionRecord_at s opcode⟩

end Sys2Proof.Machine
end

section
/-! PROOFS. The four byte formats (30_encoding.md R73): the bytes of an encoding, and the instruction they decode to. -/

namespace Sys2Proof

section
variable (i : Instr) {a b : Byte}

/-- Format N: the op-code alone; both bytes latched after it are ignored. -/
theorem encode_decode_formatN (h : i.operandBytes = []) (x y : Byte) :
    encode i = [i.opcode] ∧ decode i.opcode x y = .ok i :=
  ⟨by rw [encode, h], Machine.decode_ok_iff.2 ⟨rfl, h ▸ List.nil_prefix⟩⟩

/-- Format R: the op-code, then `ra`; the third byte latched is ignored. -/
theorem encode_decode_formatR (h : i.operandBytes = [a]) (x : Byte) :
    encode i = [i.opcode, a] ∧ decode i.opcode a x = .ok i :=
  ⟨by rw [encode, h], Machine.decode_ok_iff.2 ⟨rfl, h ▸ List.prefix_append [a] [x]⟩⟩

/-- Formats RR and RI: the op-code, then `ra`, then `rb` or `imm8`. -/
theorem encode_decode_formatRR (h : i.operandBytes = [a, b]) :
    encode i = [i.opcode, a, b] ∧ decode i.opcode a b = .ok i :=
  ⟨by rw [encode, h], Machine.decode_ok_iff.2 ⟨rfl, h ▸ List.prefix_rfl⟩⟩

end

/-- Settles O3: every instruction by the lemma of its format. -/
theorem formatsPlaceTheOperandBytes : Obligations.FormatsPlaceTheOperandBytes := by
  intro ra rb imm8 x
  exact ⟨encode_decode_formatN .ret rfl x rb,
    encode_decode_formatN .hlt rfl x rb,
    encode_decode_formatR (.prn ra) rfl x,
    encode_decode_formatR (.push ra) rfl x,
    encode_decode_formatR (.pop ra) rfl x,
    encode_decode_formatR (.call ra) rfl x,
    encode_decode_formatR (.jmp ra) rfl x,
    encode_decode_formatR (.jeq ra) rfl x,
    encode_decode_formatR (.jne ra) rfl x,
    encode_decode_formatRR (.add ra rb) rfl,
    encode_decode_formatRR (.mul ra rb) rfl,
    encode_decode_formatRR (.cmp ra rb) rfl,
    encode_decode_formatRR (.ldi ra imm8) rfl⟩

end Sys2Proof
end

section
/-! PROOFS. Fetch, decode and execute (40_fetch_decode_execute.md R101, R103): the step goes on with what the fetch and the
decoder answer. -/

namespace Sys2Proof.Machine

/-! ### The step, by what the fetch and the decoder answer -/

/-- A record that the fetch or the decoder answers is raised. -/
theorem step_of_fetchDecode_error {s : State} {r : FaultRecord} (hr : s.run = .running) (h : fetchDecode s = .error r) :
    step s = raise s r := by simp [step, hr, h]

/-- An instruction that the fetch and the decoder answer is dispatched to its handler (R103). -/
theorem step_of_fetchDecode_ok {s : State} {i : Instr} (hr : s.run = .running) (h : fetchDecode s = .ok i) :
    step s = exec i s := by simp [step, hr, h]

/-- A failed fetch is not decoded. -/
theorem fetchDecode_of_fetch_error {s : State} {r : FaultRecord} (h : fetch s = .error r) : fetchDecode s = .error r := by
  simp [fetchDecode, h]

/-! ### The op-code fetch -/

/-- A completed fetch latched the cell at `PC` (R101): it can only have completed at 253 or below. -/
theorem memRead_pc_of_fetch_ok {s : State} {l : Latches} (h : fetch s = .ok l) : s.memRead s.pc = some l.opcode := by
  have hcases : 256 ≤ s.pc.toNat ∨ (s.pc.toNat = 254 ∨ s.pc.toNat = 255) ∨ s.pc.toNat ≤ 253 := by omega
  rcases hcases with hgt | hend | hle
  · simp [fetch_of_gt hgt] at h
  · simp [fetch_of_end hend] at h
  · obtain rfl := Except.ok.inj ((fetch_of_le hle).symm.trans h)
    exact s.memRead_of_lt (by omega)

/-- The step of a running controller whose `PC` is above 255 raises, with `PC` as the address and no op-code (R101). -/
theorem step_of_pc_gt {s : State} (hr : s.run = .running) (h : 255 < s.pc.toNat) :
    step s = raise s (memOutOfRangeRecord s none s.pc) :=
  step_of_fetchDecode_error hr (fetchDecode_of_fetch_error (fetch_of_gt h))

/-- The only `PC` above 255 that the invariant allows (10_state.md R26). -/
theorem State.Inv.pc_eq_of_gt {s : State} (hinv : s.Inv) (h : 255 < s.pc.toNat) : s.pc = 256#9 :=
  BitVec.eq_of_toNat_eq (Nat.le_antisymm hinv.pcLe h)

/-- Settles O7: fetched bytes that decode make `fetchDecode` answer the instruction, which the step dispatches. -/
theorem stepRunsTheDecodedInstruction : Obligations.StepRunsTheDecodedInstruction :=
  fun _ _ _ _ _ hfetch hdecode => step_of_fetchDecode_ok hfetch.running (fetchDecode_of_ok hfetch hdecode)

/-- Settles O8: the three parts of R101, each by its lemma; what fault entry keeps is `faultedWith_takeFault`. -/
theorem opcodeFetchReadsPcOrRaises : Obligations.OpcodeFetchReadsPcOrRaises := by
  refine ⟨fun s l => memRead_pc_of_fetch_ok, fun s hr hgt => ?raises, fun s => State.Inv.pc_eq_of_gt⟩
  case raises =>
    exact ⟨_, _, step_of_pc_gt hr hgt, faultedWith_takeFault s _, memOutOfRangeRecord_at s none s.pc⟩

end Sys2Proof.Machine
end

section
/-! PROOFS. Load-immediate and output (41_load_output.md R120, R121): the encoding, the effect with its frame, and the fault
of an index that names no register. -/

namespace Sys2Proof.Machine

/-! ### The fault of a bad index -/

/-- Of one checked byte, 8..255 is the first bad index (40_fetch_decode_execute.md R108). -/
theorem firstBadIndex_of_checks_one {i : Instr} {flag : Bool} {a : Byte} (hcheck : checkedIndices i flag = [a])
    (h : 8 ≤ a.toNat) : firstBadIndex i flag = some a := by
  simp [firstBadIndex, hcheck, h]

/-- A handler with a bad index ends in fault entry, with a record that names the register space and the first one
(60_exceptions.md R202, R204). -/
theorem exec_faults_of_badIndex {i : Instr} {s : State} {b : Byte} (h : firstBadIndex i s.flag = some b) :
    ∃ t r, exec i s = .next t ∧ FaultedWith r s t ∧ RegOutOfRangeAt s i.opcode b r :=
  ⟨_, _, exec_of_badIndex h, faultedWith_takeFault s _, regOutOfRangeRecord_at s i.opcode b⟩

/-! ### Frames of the updates -/

/-- A register write changes no other register. -/
theorem State.keepsRegsBut_setReg (s : State) (i : RegIndex) (v : Byte) : KeepsRegsBut [i] s (s.setReg i v) :=
  fun j hj => s.reg_setReg_other i j v (List.ne_of_not_mem_cons hj)

/-- A frame of registers goes on through the advance of `PC`. -/
theorem KeepsRegsBut.advance {written : List RegIndex} {s t : State} (h : KeepsRegsBut written s t) (w : Nat) :
    KeepsRegsBut written s (t.advance w) :=
  fun j hj => (t.advance_reg w j).trans (h j hj)

/-! ### LDI and PRN -/

/-- Settles O19: the encoding by its format, the effect by `execLdi_of_lt` with the frame of a register write, and the fault
because LDI checks `ra`. -/
theorem ldiWritesTheImmediate : Obligations.LdiWritesTheImmediate := by
  intro s ra imm8
  obtain ⟨hbytes, hdecode⟩ := encode_decode_formatRR (.ldi ra imm8) rfl
  refine ⟨hdecode, congrArg List.length hbytes, fun h => ?effect, fun h => ?fault⟩
  case effect =>
    exact ⟨_, execLdi_of_lt s imm8 h, s.reg_setReg_same _ imm8, (s.keepsRegsBut_setReg _ imm8).advance 3, rfl, rfl,
      fun _ => rfl, rfl, rfl, rfl⟩
  case fault => exact exec_faults_of_badIndex (firstBadIndex_of_checks_one rfl h)

/-- Settles O20: the encoding by its format, the effect by `execPrn_of_lt`, whose two updates write no register, and the
fault because PRN checks `ra`. -/
theorem prnEmitsTheRegister : Obligations.PrnEmitsTheRegister := by
  intro s ra x
  obtain ⟨hbytes, hdecode⟩ := encode_decode_formatR (.prn ra) rfl x
  refine ⟨hdecode, congrArg List.length hbytes, fun h => ?effect, fun h => ?fault⟩
  case effect =>
    exact ⟨_, execPrn_of_lt s h, rfl, fun _ _ => rfl, rfl, rfl, fun _ => rfl, rfl, rfl⟩
  case fault => exact exec_faults_of_badIndex (firstBadIndex_of_checks_one rfl h)

end Sys2Proof.Machine
end

section
/-! PROOFS. The ALU (42_alu.md R132, R133): ADD and MUL, modulo 256, with their frames and the faults of a bad index. -/

namespace Sys2Proof.Machine

/-! ### The fault of a bad index, of two -/

section
variable {i : Instr} {s : State} {a b : Byte} (hcheck : checkedIndices i s.flag = [a, b])
include hcheck

/-- Of two checked bytes, `operand_a` is the first bad index when it is 8..255 (40_fetch_decode_execute.md R108). -/
theorem firstBadIndex_of_checks_two_left (ha : 8 ≤ a.toNat) : firstBadIndex i s.flag = some a := by
  simp [firstBadIndex, hcheck, ha]

/-- Of two checked bytes, `operand_b` is the first bad index when it alone is 8..255 (40_fetch_decode_execute.md R108). -/
theorem firstBadIndex_of_checks_two_right (ha : a.toNat < 8) (hb : 8 ≤ b.toNat) :
    firstBadIndex i s.flag = some b := by
  simp [firstBadIndex, hcheck, ha, hb]

/-- A handler that checks two indices raises for `operand_a` before `operand_b` (40_fetch_decode_execute.md R108, R109). -/
theorem exec_faults_of_checks_two :
    (8 ≤ a.toNat → ∃ t r, exec i s = .next t ∧ FaultedWith r s t ∧ RegOutOfRangeAt s i.opcode a r) ∧
    (a.toNat < 8 → 8 ≤ b.toNat → ∃ t r, exec i s = .next t ∧ FaultedWith r s t ∧ RegOutOfRangeAt s i.opcode b r) :=
  ⟨fun ha => exec_faults_of_badIndex (firstBadIndex_of_checks_two_left hcheck ha),
    fun ha hb => exec_faults_of_badIndex (firstBadIndex_of_checks_two_right hcheck ha hb)⟩

end

/-! ### The frame of conditional output -/

/-- A frame of registers goes on through the output of MUL. -/
theorem KeepsRegsBut.emitIf {written : List RegIndex} {s t : State} (h : KeepsRegsBut written s t) (emits : Bool)
    (a : RegIndex) : KeepsRegsBut written s (t.emitIf emits a) :=
  fun j hj => (t.emitIf_reg emits a j).trans (h j hj)

/-- A write to register `a` and then its conditional output emit exactly the value written (42_alu.md R133, R134). -/
theorem State.setReg_emitIf_out (s : State) (a : RegIndex) (v : Byte) (emits : Bool) :
    ((s.setReg a v).emitIf emits a).out = s.out ++ (if emits then [v] else []) := by
  rw [State.emitIf_out, State.reg_setReg_same, State.setReg_out]

/-! ### ADD and MUL -/

/-- Settles O23: the encoding by its format, the effect by `execAdd_of_lt`, where the sum of bytes is the sum modulo 256,
and the faults because ADD checks `ra`, then `rb`. -/
theorem addIsModulo256 : Obligations.AddIsModulo256 := by
  intro s ra rb
  obtain ⟨hbytes, hdecode⟩ := encode_decode_formatRR (.add ra rb) rfl
  refine ⟨hdecode, congrArg List.length hbytes, fun ha hb => ?effect, exec_faults_of_checks_two rfl⟩
  case effect =>
    refine ⟨_, execAdd_of_lt s ha hb, ?sum, (s.keepsRegsBut_setReg _ _).advance 3, rfl, rfl, fun _ => rfl, rfl, rfl, rfl⟩
    case sum => rw [State.advance_reg, State.reg_setReg_same, BitVec.toNat_add]

/-- Settles O24: the encoding by its format, the effect by `execMul_of_lt`, whose output is the product exactly under
`mulEmits`, and the faults because MUL checks `ra`, then `rb`. -/
theorem mulIsModulo256 : Obligations.MulIsModulo256 := by
  intro s ra rb
  obtain ⟨hbytes, hdecode⟩ := encode_decode_formatRR (.mul ra rb) rfl
  refine ⟨hdecode, congrArg List.length hbytes, fun ha hb => ?effect, exec_faults_of_checks_two rfl⟩
  case effect =>
    refine ⟨_, execMul_of_lt s ha hb, ?product, ((s.keepsRegsBut_setReg _ _).emitIf _ _).advance 3, ?pc, ?out, ?flag,
      fun c => ?mem, ?run, ?fault⟩
    case product => rw [State.advance_reg, State.emitIf_reg, State.reg_setReg_same, BitVec.toNat_mul]
    case out =>
      rw [State.advance_out, State.setReg_emitIf_out, State.advance_reg, State.emitIf_reg, State.reg_setReg_same]
    case pc | flag | mem | run | fault => simp

end Sys2Proof.Machine
end

section
/-! PROOFS. Return (44_call_return.md R151): the byte under the stack pointer becomes `PC`, and the stack pointer goes up by
one. -/

namespace Sys2Proof.Machine

/-! ### The increment of the stack pointer -/

/-- The increment of the stack pointer is modulo 256 (10_state.md R24). -/
theorem State.incSp_reg_seven_toNat (s : State) : (s.incSp.reg 7).toNat = ((s.reg 7).toNat + 1) % 256 := by
  rw [State.incSp_reg, if_pos rfl, BitVec.toNat_add, BitVec.toNat_ofNat]

/-- The increment of the stack pointer writes `X[7]` only (10_state.md R23). -/
theorem State.keepsRegsBut_incSp (s : State) : KeepsRegsBut [7] s s.incSp :=
  s.keepsRegsBut_setReg Config.spIndex _

/-! ### RET -/

/-- Settles O31: the encoding by its format, and the effect by `execRet_eq`, where the jump writes no register, so the whole
change of the registers is that of the increment. -/
theorem retPopsTheProgramCounter : Obligations.RetPopsTheProgramCounter := by
  intro s x y
  obtain ⟨hbytes, hdecode⟩ := encode_decode_formatN .ret rfl x y
  refine ⟨hdecode, congrArg List.length hbytes, _, _, s.memRead_spAddr, execRet_eq s, ?effect⟩
  case effect =>
    exact ⟨rfl, (s.jumpTo _).incSp_reg_seven_toNat, (s.jumpTo _).keepsRegsBut_incSp, fun _ => rfl, rfl, rfl, rfl, rfl⟩

end Sys2Proof.Machine
end

section
/-! PROOFS. Compare and jump (45_compare_branch.md R160, R161): CMP, the only writer of FLAG, and JMP, with their frames and
the faults of a bad index. -/

namespace Sys2Proof.Machine

/-- Settles O33: the encoding by its format, the effect by `execCmp_of_lt`, whose two updates write FLAG and `PC` only, the
faults because CMP checks `ra`, then `rb`, and that it is the only writer by `fetches_cmp_of_step_flag_ne`. -/
theorem cmpSetsTheFlagOnEquality : Obligations.CmpSetsTheFlagOnEquality := by
  intro s ra rb
  obtain ⟨hbytes, hdecode⟩ := encode_decode_formatRR (.cmp ra rb) rfl
  obtain ⟨hfaultA, hfaultB⟩ := exec_faults_of_checks_two (i := .cmp ra rb) (s := s) rfl
  refine ⟨hdecode, congrArg List.length hbytes, fun ha hb => ?effect, hfaultA, hfaultB, fun s' t hstep => ?onlyWriter⟩
  case effect =>
    exact ⟨_, execCmp_of_lt s ha hb, equalFlag_eq_true_iff, rfl, fun _ _ => rfl, fun _ => rfl, rfl, rfl, rfl⟩
  case onlyWriter => exact or_iff_not_imp_left.2 (fetches_cmp_of_step_flag_ne hstep)

/-- Settles O34: the encoding by its format, the effect by `jumpIf_taken`, since JMP always jumps and a jump writes `PC`
only, and the fault because JMP checks `ra`. -/
theorem jmpGoesToTheRegister : Obligations.JmpGoesToTheRegister := by
  intro s ra x
  obtain ⟨hbytes, hdecode⟩ := encode_decode_formatR (.jmp ra) rfl x
  refine ⟨hdecode, congrArg List.length hbytes, fun h => ?effect, fun h => ?fault⟩
  case effect =>
    exact ⟨_, jumpIf_taken s (Instr.jmp ra).opcode h, rfl, rfl, fun _ _ => rfl, fun _ => rfl, rfl, rfl, rfl⟩
  case fault => exact exec_faults_of_badIndex (firstBadIndex_of_checks_one rfl h)

end Sys2Proof.Machine
end

section
/-! PROOFS. Fault entry (60_exceptions.md R204): the step of a running controller ends TERMINATED only by a raise, which sets
`RUN` and `FAULT` and nothing else. -/

namespace Sys2Proof.Machine

/-- The effect of every instruction but HLT keeps `RUN`; HLT's is HALTED (46_halt.md R180). -/
theorem effect_run (i : Instr) (s : State) : (effect i s).run = if i = .hlt then .halted else s.run := by
  cases i with
  | jeq ra => simp only [effect]; split <;> rfl
  | jne ra => simp only [effect]; split <;> rfl
  | mul ra rb => simp [effect]
  | _ => rfl

/-- No instruction's effect on a running controller ends TERMINATED: that is left to fault entry. -/
theorem effect_run_ne_terminated (i : Instr) {s : State} (hr : s.run = .running) : (effect i s).run ≠ .terminated := by
  rw [effect_run, hr]
  split <;> decide

/-- A raise ends in fault entry with its record. -/
theorem faultedWith_of_raise {s t : State} {r : FaultRecord} (h : raise s r = .next t) : FaultedWith r s t := by
  obtain rfl : s.takeFault r = t := by simpa [raise] using h
  exact faultedWith_takeFault s r

/-- Settles O14: of the ends in `step_cases`, the four raises give fault entry with the record of their condition, and the
handler's effect does not end TERMINATED. -/
theorem faultEntryDoesNothingElse : Obligations.FaultEntryDoesNothingElse := by
  intro s t hr hs hterm
  rcases step_cases hr with ⟨-, e⟩ | ⟨-, e⟩ | ⟨opcode, _, _, -, -, e⟩ | ⟨opcode, _, _, _, index, -, -, -, e⟩ |
    ⟨_, _, _, i, -, -, -, e⟩
  · exact ⟨_, faultedWith_of_raise (e.symm.trans hs), .inr (.inl ⟨_, _, memOutOfRangeRecord_at s _ _⟩)⟩
  · exact ⟨_, faultedWith_of_raise (e.symm.trans hs), .inr (.inl ⟨_, _, memOutOfRangeRecord_at s _ _⟩)⟩
  · exact ⟨_, faultedWith_of_raise (e.symm.trans hs), .inl ⟨opcode, unknownInstructionRecord_at s opcode⟩⟩
  · exact ⟨_, faultedWith_of_raise (e.symm.trans hs), .inr (.inr ⟨opcode, index, regOutOfRangeRecord_at s opcode index⟩)⟩
  · obtain rfl : effect i s = t := by simpa using e.symm.trans hs
    exact absurd hterm (effect_run_ne_terminated i hr)

end Sys2Proof.Machine
end

section
/-! PROOFS. Reset, image load and start (70_reset_and_hazards.md R230 to R232): what a booted state is, and what its first
step fetches. -/

namespace Sys2Proof.Machine

/-! ### The loaded memory -/

/-- The memory after the host's load (R231): byte `n` of the image in cell `a + n`, every other cell as it was. -/
theorem Memory.read_writeBytes (image : List Byte) (a : Nat) (m : Memory) (c : Nat) :
    (Memory.writeBytes image a m).read c = if a ≤ c then image.getD (c - a) (m.read c) else m.read c := by
  induction image generalizing a m with
  | nil => simp [Memory.writeBytes]
  | cons b rest ih =>
    rw [Memory.writeBytes, ih, Memory.read_write]
    rcases lt_trichotomy c a with hlt | rfl | hgt
    · simp [show ¬ a + 1 ≤ c by omega, show ¬ a ≤ c by omega, hlt.ne]
    · simp
    · obtain ⟨n, rfl⟩ := Nat.exists_eq_add_of_lt hgt
      have hrest : a + n + 1 - (a + 1) = n := by omega
      have hcons : a + n + 1 - a = n + 1 := by omega
      simp [hrest, hcons, hgt.le, hgt.ne']

/-- Loaded from address 0 into the memory of reset, the image is the whole memory, 0 past its end (R230, R231). -/
theorem Memory.read_writeBytes_reset (image : List Byte) (c : Nat) :
    (Memory.writeBytes image 0 State.reset.mem).read c = image.getD c 0 := by
  rw [Memory.read_writeBytes, if_pos c.zero_le]
  rfl

/-! ### The booted state -/

/-- From any earlier state, a booted state is the state of reset with the image loaded at address 0 (R230, R231). -/
theorem eq_of_boot {image : List Byte} {s t : State} (h : boot image s = some t) :
    t = { State.reset with mem := Memory.writeBytes image 0 State.reset.mem } := by
  rw [boot, loadImage, Option.ite_none_right_eq_some] at h
  exact (Option.some.inj h.2).symm

/-- Settles O50: a booted state is RUNNING at `PC` 0 as reset left it, so the three bytes are latched from cells 0, 1 and
2, which hold the loaded image. -/
theorem firstStepFetchesAtZero : Obligations.FirstStepFetchesAtZero := by
  intro image s t h
  obtain rfl := eq_of_boot h
  refine ⟨rfl, rfl, ?fetches⟩
  case fetches =>
    simp only [← Memory.read_writeBytes_reset]
    exact State.fetches_of_le rfl (Nat.zero_le 253)

end Sys2Proof.Machine
end

section
/-! PROOFS. Encoder and decoder (30_encoding.md R71 to R77): bytes decode to an instruction exactly when they begin with its
encoding. -/

namespace Sys2Proof.Machine

/-! ### Agreement of encoder and decoder -/

/-- No format has more than two operand bytes (30_encoding.md R73). -/
theorem operandBytes_length_le (i : Instr) : i.operandBytes.length ≤ 2 := by
  cases i <;> simp [Instr.operandBytes]

/-- A list no longer than `l` begins `l ++ l'` exactly when it begins `l`. -/
theorem prefix_append_iff_of_length_le {α : Type} {k l : List α} (l' : List α) (h : k.length ≤ l.length) :
    k <+: l ++ l' ↔ k <+: l :=
  ⟨fun hk => List.prefix_of_prefix_length_le hk (List.prefix_append l l') h,
    fun hk => hk.trans (List.prefix_append l l')⟩

/-- Bytes decode to an instruction exactly when they begin with its encoding and are the three that are latched, or more
(30_encoding.md R73, R77, R102). -/
theorem decodeBytes_ok_iff {bytes : List Byte} {i : Instr} :
    decodeBytes bytes = .ok i ↔ encode i <+: bytes ∧ 3 ≤ bytes.length := by
  match bytes with
  | opcode :: a :: b :: rest =>
    have hlatched : i.operandBytes <+: a :: b :: rest ↔ i.operandBytes <+: [a, b] :=
      prefix_append_iff_of_length_le (l := [a, b]) rest (operandBytes_length_le i)
    rw [decodeBytes, decode_ok_iff, encode, List.cons_prefix_cons, hlatched, eq_comm]
    simp
  | [] => simp [decodeBytes]
  | [_] => simp [decodeBytes]
  | [_, _] => simp [decodeBytes]

/-- Settles O1: both directions are `decodeBytes_ok_iff`; an encoding followed by two bytes is long enough, since it has its
op-code. -/
theorem encodingAndDecodingAgree : Obligations.EncodingAndDecodingAgree := by
  refine ⟨fun i p q rest => decodeBytes_ok_iff.2 ⟨List.prefix_append _ _, ?long⟩, fun bytes i => decodeBytes_ok_iff.1⟩
  case long =>
    simp only [encode, List.length_append, List.length_cons]
    omega

/-- Settles O4: the decoder run on each word. -/
theorem sampleWordsDecode : Obligations.SampleWordsDecode := by
  unfold Obligations.SampleWordsDecode
  decide

/-! ### Widths -/

/-- Every encoding has the width that its op-code gives (30_encoding.md R71). -/
theorem encode_length (i : Instr) : (encode i).length = widthOf i.opcode := by
  cases i with
  | ldi ra imm8 => exact Laws.EncodedWidth.ldi ra imm8
  | prn ra => exact Laws.EncodedWidth.prn ra
  | add ra rb => exact Laws.EncodedWidth.add ra rb
  | mul ra rb => exact Laws.EncodedWidth.mul ra rb
  | push ra => exact Laws.EncodedWidth.push ra
  | pop ra => exact Laws.EncodedWidth.pop ra
  | call ra => exact Laws.EncodedWidth.call ra
  | ret => exact Laws.EncodedWidth.ret
  | cmp ra rb => exact Laws.EncodedWidth.cmp ra rb
  | jmp ra => exact Laws.EncodedWidth.jmp ra
  | jeq ra => exact Laws.EncodedWidth.jeq ra
  | jne ra => exact Laws.EncodedWidth.jne ra
  | hlt => exact Laws.EncodedWidth.hlt

/-- The width of an op-code, by its bits 7 and 6 (30_encoding.md R71; decision D21). -/
theorem widthOf_eq_topBits (opcode : Byte) : widthOf opcode = (opcode.extractLsb' 6 2).toNat + 1 := by
  have hlt := opcode.isLt
  rw [widthOf, BitVec.extractLsb'_toNat, Nat.shiftRight_eq_div_pow]
  omega

/-- Settles O5: a decoded instruction has the op-code it was decoded from, which gives its width. -/
theorem opcodeTopBitsGiveTheWidth : Obligations.OpcodeTopBitsGiveTheWidth := by
  intro opcode a b i hd
  rw [encode_length, opcode_of_decode hd, widthOf_eq_topBits]

/-- Settles O6: by `decode_ok_iff` only the leading operand bytes decide, as many as the instruction's format has. -/
theorem bytesPastTheWidthAreIgnored : Obligations.BytesPastTheWidthAreIgnored := by
  intro opcode a b i hd
  obtain ⟨hop, hbytes⟩ := decode_ok_iff.1 hd
  rw [encode, List.length_cons]
  refine ⟨fun hlen b' => decode_ok_iff.2 ⟨hop, ?third⟩, fun hlen a' b' => decode_ok_iff.2 ⟨hop, ?second⟩⟩
  case third =>
    have ha : i.operandBytes <+: [a] := (prefix_append_iff_of_length_le [b] (Nat.le_of_succ_le_succ hlen)).1 hbytes
    exact ha.trans (List.prefix_append [a] [b'])
  case second =>
    rw [List.length_eq_zero_iff.1 (Nat.le_zero.1 (Nat.le_of_succ_le_succ hlen))]
    exact List.nil_prefix

end Sys2Proof.Machine
end

section
/-! PROOFS. What every step can do, said of the state it leaves; the stopped machine (40_fetch_decode_execute.md R106), and
the fatal conditions (60_exceptions.md). -/

namespace Sys2Proof.Machine

/-! ### The state a step leaves -/

/-- No instruction's effect writes the fault record. -/
@[simp] theorem effect_fault (i : Instr) (s : State) : (effect i s).fault = s.fault := by
  cases i with
  | jeq ra => simp only [effect]; split <;> rfl
  | jne ra => simp only [effect]; split <;> rfl
  | mul ra rb => simp [effect]
  | _ => rfl

/-- A raise answers fault entry. -/
theorem eq_takeFault_of_raise {s t : State} {r : FaultRecord} (h : raise s r = .next t) : t = s.takeFault r := by
  simpa [raise, eq_comm] using h

/-- A running controller raises, or leaves the effect of the instruction it fetched. -/
theorem step_raises_or_effect {s : State} (hr : s.run = .running) :
    (∃ r, step s = raise s r) ∨
    ∃ opcode a b i, s.Fetches opcode a b ∧ decode opcode a b = .ok i ∧ firstBadIndex i s.flag = none ∧
      step s = .next (effect i s) := by
  rcases step_cases hr with ⟨-, e⟩ | ⟨-, e⟩ | ⟨_, _, _, -, -, e⟩ | ⟨_, _, _, _, _, -, -, -, e⟩ | heffect
  · exact .inl ⟨_, e⟩
  · exact .inl ⟨_, e⟩
  · exact .inl ⟨_, e⟩
  · exact .inl ⟨_, e⟩
  · exact .inr heffect

/-- The three kinds of states a step can leave: fault entry, the effect of the fetched instruction, or, of a stopped
controller, the state it started from. -/
theorem step_next_cases {s t : State} (hs : step s = .next t) :
    (s.run = .running ∧ ∃ r, t = s.takeFault r) ∨
    (∃ opcode a b i, s.Fetches opcode a b ∧ decode opcode a b = .ok i ∧ firstBadIndex i s.flag = none ∧ t = effect i s) ∨
    (s.run ≠ .running ∧ t = s) := by
  by_cases hr : s.run = .running
  · rcases step_raises_or_effect hr with ⟨r, e⟩ | ⟨opcode, a, b, i, hf, hd, hgood, e⟩
    · exact .inl ⟨hr, r, eq_takeFault_of_raise (e.symm.trans hs)⟩
    · exact .inr (.inl ⟨opcode, a, b, i, hf, hd, hgood, Host.Outcome.next.inj (hs.symm.trans e)⟩)
  · exact .inr (.inr ⟨hr, Host.Outcome.next.inj (hs.symm.trans (step_of_stopped hr))⟩)

/-- Settles O11: a raise and an effect are next states, and a stopped controller answers its own. -/
theorem everyStateHasANextState : Obligations.EveryStateHasANextState := by
  intro s
  by_cases hr : s.run = .running
  · rcases step_raises_or_effect hr with ⟨_, e⟩ | ⟨_, _, _, _, -, -, -, e⟩
    · exact ⟨_, e⟩
    · exact ⟨_, e⟩
  · exact ⟨s, step_of_stopped hr⟩

/-! ### Runs -/

/-- A run that answers a state takes its steps one by one. -/
theorem run_succ_next_iff {n : Nat} {s t : State} :
    Host.Core.run core (n + 1) s = .next t ↔ ∃ u, step s = .next u ∧ Host.Core.run core n u = .next t := by
  obtain ⟨u, hu⟩ := everyStateHasANextState s
  have hrun : Host.Core.run core (n + 1) s = Host.Core.run core n u := by
    simp only [Host.Core.run, Host.Check.core_step, hu]
  simp [hrun, hu]

/-- What every step keeps, every run keeps. -/
theorem run_keeps {P : State → Prop} (hstep : ∀ s t, P s → step s = .next t → P t) {n : Nat} {s t : State} (h : P s)
    (hrun : Host.Core.run core n s = .next t) : P t := by
  induction n generalizing s with
  | zero =>
    obtain rfl : s = t := Host.Outcome.next.inj hrun
    exact h
  | succ n ih =>
    obtain ⟨u, hu, hrest⟩ := run_succ_next_iff.1 hrun
    exact ih (hstep s u h hu) hrest

/-- Settles O10, by induction on the number of steps: each answers the state it started from. -/
theorem stoppedMachineNeverChanges : Obligations.StoppedMachineNeverChanges := by
  intro n s hr
  induction n with
  | zero => rfl
  | succ n ih => exact run_succ_next_iff.2 ⟨s, step_of_stopped hr, ih⟩

/-! ### Fatal conditions -/

/-- Settles O9: the fetch fails at 256 with the op-code in the record, and what a fetch fails with is raised. -/
theorem lookaheadFaultsAtTheEndOfMemory : Obligations.LookaheadFaultsAtTheEndOfMemory := by
  intro s opcode hr hpc hop
  have hend : s.pc.toNat = 254 ∨ s.pc.toNat = 255 := hpc.imp (congrArg BitVec.toNat) (congrArg BitVec.toNat)
  have hread : s.mem.read s.pc.toNat = opcode := by
    simpa [State.memRead_of_lt s (show s.pc.toNat < 256 by omega)] using hop
  have hs := step_of_fetchDecode_error hr (fetchDecode_of_fetch_error (fetch_of_end hend))
  rw [hread] at hs
  exact ⟨_, _, hs, faultedWith_takeFault s _, memOutOfRangeRecord_at s _ 256#9⟩

/-- The bad index is a byte 8..255 (40_fetch_decode_execute.md R108). -/
theorem le_toNat_of_firstBadIndex {i : Instr} {flag : Bool} {index : Byte} (h : firstBadIndex i flag = some index) :
    8 ≤ index.toNat := by
  simpa using List.find?_some h

/-- A handler without a bad index goes on: no fault is recorded, and `RUN` changes by HLT only. -/
theorem exec_goes_on_of_goodIndex {i : Instr} {s : State} (h : firstBadIndex i s.flag = none) :
    ∃ t, exec i s = .next t ∧ t.fault = s.fault ∧ t.run = if i = .hlt then .halted else s.run :=
  ⟨_, exec_of_goodIndex h, effect_fault i s, effect_run i s⟩

/-- Settles O13: a bad index is raised, and without one the handler leaves its effect. -/
theorem firstBadRegisterIndexIsRaised : Obligations.FirstBadRegisterIndexIsRaised :=
  fun _ _ => ⟨fun _ hbad => ⟨le_toNat_of_firstBadIndex hbad, exec_faults_of_badIndex hbad⟩, exec_goes_on_of_goodIndex⟩

/-- There is no bad index exactly when every checked byte names a register. -/
theorem firstBadIndex_eq_none_iff {i : Instr} {flag : Bool} :
    firstBadIndex i flag = none ↔ ∀ b ∈ checkedIndices i flag, b.toNat < 8 := by
  simp [firstBadIndex]

/-- An instruction that the assembly language can write uses no bad index (30_encoding.md R80). -/
theorem firstBadIndex_of_wellFormed {i : Instr} (flag : Bool) (h : WellFormed i) : firstBadIndex i flag = none := by
  rw [firstBadIndex_eq_none_iff]
  cases i with
  | jeq ra => cases flag <;> simp_all [checkedIndices, WellFormed, Instr.wellFormed, isRegister]
  | jne ra => cases flag <;> simp_all [checkedIndices, WellFormed, Instr.wellFormed, isRegister]
  | _ => simp_all [checkedIndices, WellFormed, Instr.wellFormed, isRegister]

/-- Settles O18: without a bad index the handler goes on, and from RUNNING its effect does not end TERMINATED. -/
theorem wellFormedInstructionsDoNotFault : Obligations.WellFormedInstructionsDoNotFault :=
  fun i s hwf hr => ⟨effect i s, exec_of_goodIndex (firstBadIndex_of_wellFormed s.flag hwf),
    effect_run_ne_terminated i hr, effect_fault i s⟩

/-- Settles O16: by `faultEntryDoesNothingElse` the record is one of three, of the two other kinds. -/
theorem unsupportedOperationIsNeverRaised : Obligations.UnsupportedOperationIsNeverRaised := by
  intro s t r hr hs hterm hfault
  obtain ⟨r', ⟨-, hfault', -⟩, hrecord⟩ := faultEntryDoesNothingElse s t hr hs hterm
  obtain rfl : r = r' := Option.some.inj (hfault.symm.trans hfault')
  rcases hrecord with ⟨_, hkind, -⟩ | ⟨_, _, hkind, -⟩ | ⟨_, _, hkind, -⟩
  · simp [hkind]
  · simp [hkind]
  · simp [hkind]

/-- An operator the ALU lacks is raised, whatever the handler would have gone on with (42_alu.md R131). -/
theorem alu_other (s : State) (opcode : Byte) (name : String) (a b : RegIndex) (k : State → Result) :
    alu s opcode (.other name) a b k = raise s (unsupportedOperationRecord s opcode (.other name)) := rfl

/-- Settles O17: the ALU raises, and fault entry writes nothing. -/
theorem aluRejectsOtherOperators : Obligations.AluRejectsOtherOperators :=
  fun s opcode name a b k => ⟨_, _, alu_other s opcode name a b k, faultedWith_takeFault s _, rfl, rfl, rfl, rfl⟩

/-! ### Exactly when a step ends TERMINATED -/

/-- The op-code map has the thirteen op-codes of 30_encoding.md R72, and no other. -/
theorem no_row_iff_not_mem_opcodes (opcode : Byte) : (∀ row ∈ opcodeTable, row.opcode ≠ opcode) ↔
    opcode.toNat ∉ [0x82, 0x47, 0xA0, 0xA2, 0x45, 0x46, 0x50, 0x11, 0xA7, 0x54, 0x55, 0x56, 0x01] := by
  have hopcodes : opcodeTable.map (fun row => row.opcode.toNat) =
      [0x82, 0x47, 0xA0, 0xA2, 0x45, 0x46, 0x50, 0x11, 0xA7, 0x54, 0x55, 0x56, 0x01] := rfl
  simp only [← hopcodes, List.mem_map, BitVec.toNat_inj, not_exists, not_and, ne_eq]

/-- A decoded op-code has a row. -/
theorem exists_row_of_decode {opcode a b : Byte} {i : Instr} (h : decode opcode a b = .ok i) :
    ¬ ∀ row ∈ opcodeTable, row.opcode ≠ opcode := by
  rcases decode_cases opcode a b with ⟨row, hrow, hop, -⟩ | ⟨-, hd⟩
  · exact fun hnone => hnone row hrow hop
  · simp [h] at hd

/-- Settles O15: each raise in `step_cases` comes with its condition; the handler's effect does not end TERMINATED, and comes
with a fetch, a decoded op-code and good indices, which exclude the three conditions. -/
theorem stepTerminatesExactlyOnAFatalCondition : Obligations.StepTerminatesExactlyOnAFatalCondition := by
  intro s hr
  rcases step_cases hr with ⟨hpc, e⟩ | ⟨hpc, e⟩ | ⟨opcode, a, b, hf, hnone, e⟩ | ⟨opcode, a, b, i, index, hf, hd, hbad, e⟩ |
    ⟨opcode, a, b, i, hf, hd, hgood, e⟩
  · exact ⟨_, e, iff_of_true rfl (.inl (by omega))⟩
  · exact ⟨_, e, iff_of_true rfl (.inl (by omega))⟩
  · exact ⟨_, e, iff_of_true rfl (.inr (.inl ⟨opcode, a, b, hf, (no_row_iff_not_mem_opcodes opcode).1 hnone⟩))⟩
  · exact ⟨_, e, iff_of_true rfl (.inr (.inr ⟨opcode, a, b, i, hf, hd, by simp [hbad]⟩))⟩
  · refine ⟨_, e, iff_of_false (effect_run_ne_terminated i hr) ?noCondition⟩
    rintro (hpc | ⟨_, _, _, hf', hnot⟩ | ⟨_, _, _, i', hf', hd', hbad⟩)
    · have := hf.pcLe
      omega
    · obtain ⟨rfl, -, -⟩ := hf.unique hf'
      exact exists_row_of_decode hd ((no_row_iff_not_mem_opcodes _).2 hnot)
    · obtain ⟨rfl, rfl, rfl⟩ := hf.unique hf'
      obtain rfl : i = i' := Except.ok.inj (hd.symm.trans hd')
      simp [hgood] at hbad

/-! ### HLT -/

/-- Settles O38: the encoding by its format, and HLT writes `RUN` only. -/
theorem hltHaltsAndKeepsEverything : Obligations.HltHaltsAndKeepsEverything := by
  intro s x y
  obtain ⟨hbytes, hdecode⟩ := encode_decode_formatN .hlt rfl x y
  exact ⟨hdecode, congrArg List.length hbytes, s.halt, rfl, rfl, rfl, rfl, rfl, rfl, fun _ _ => rfl, fun _ => rfl⟩

/-- Settles O39: from RUNNING, fault entry ends TERMINATED and every effect but HLT's ends RUNNING. -/
theorem onlyHltEntersHalted : Obligations.OnlyHltEntersHalted := by
  intro s t hr hs hhalted
  rcases step_next_cases hs with ⟨-, r, rfl⟩ | ⟨opcode, a, b, i, hf, hd, -, rfl⟩ | ⟨hstopped, -⟩
  · cases hhalted
  · obtain rfl : i = .hlt := by
      by_contra hi
      simp [effect_run, hi, hr] at hhalted
    obtain rfl : 0x01#8 = opcode := opcode_of_decode hd
    exact ⟨⟨a, b, hf⟩, rfl⟩
  · exact absurd hr hstopped

end Sys2Proof.Machine
end

section
/-! PROOFS. Output (41_load_output.md R123, 42_alu.md R134): which step emits, and that a run only appends. -/

namespace Sys2Proof.Machine

/-- The effect of an instruction emits nothing, or one value: PRN's, or MUL's under `mulEmits`. -/
theorem effect_out_cases (i : Instr) (s : State) :
    (effect i s).out = s.out ∨
    ∃ v, (effect i s).out = s.out ++ [v] ∧ (i.opcode = 0x47#8 ∨ (mulEmits = true ∧ i.opcode = 0xA2#8)) := by
  cases i with
  | prn ra => exact .inr ⟨_, rfl, .inl rfl⟩
  | mul ra rb =>
    cases hemits : mulEmits with
    | false => exact .inl (by simp [effect, hemits])
    | true => exact .inr ⟨_, by simp only [effect, hemits]; rfl, .inr ⟨rfl, rfl⟩⟩
  | jeq ra => left; simp only [effect]; split <;> rfl
  | jne ra => left; simp only [effect]; split <;> rfl
  | _ => exact .inl rfl

/-- Settles O21: fault entry and a stopped controller keep the output, and `effect_out_cases` says which effects do not. -/
theorem onlyPrnAndMulEmit : Obligations.OnlyPrnAndMulEmit := by
  intro s t hs
  rcases step_next_cases hs with ⟨-, r, rfl⟩ | ⟨opcode, a, b, i, hf, hd, -, rfl⟩ | ⟨-, rfl⟩
  · exact .inl rfl
  · obtain rfl := opcode_of_decode hd
    refine (effect_out_cases i s).imp_right ?emits
    rintro ⟨v, hout, hop⟩
    refine ⟨a, b, v, hout, hop.imp ?prn ?mul⟩
    case prn => exact fun hop => hop ▸ hf
    case mul => exact fun ⟨hemits, hop⟩ => ⟨hemits, hop ▸ hf⟩
  · exact .inl rfl

/-- A step only appends to the output. -/
theorem out_isPrefix_of_step {s t : State} (hs : step s = .next t) : s.out <+: t.out := by
  rcases onlyPrnAndMulEmit s t hs with hout | ⟨_, _, _, hout, -⟩
  · exact hout ▸ List.prefix_rfl
  · exact hout ▸ List.prefix_append _ _

/-- Settles O22: what was emitted before the run begins the output at every later state, since every step keeps that. -/
theorem emittedEventsAreNeverTakenBack : Obligations.EmittedEventsAreNeverTakenBack :=
  fun _ s _ hrun => run_keeps (P := fun u => s.out <+: u.out)
    (fun _ _ hu hs => hu.trans (out_isPrefix_of_step hs)) List.prefix_rfl hrun

end Sys2Proof.Machine
end

section
/-! PROOFS. Who writes memory (20_memory.md R52, R54) and which register (10_state.md R25). -/

namespace Sys2Proof.Machine

/-- The effect of an instruction keeps the memory array, or is PUSH's or CALL's and writes the cell below the stack
pointer. -/
theorem effect_mem_cases (i : Instr) (s : State) :
    (effect i s).mem = s.mem ∨
    ((i.opcode = 0x45#8 ∨ i.opcode = 0x50#8) ∧ ∃ v, (effect i s).mem = (s.store s.decSp.spAddr v).mem) := by
  cases i with
  | push ra => exact .inr ⟨.inl rfl, _, rfl⟩
  | call ra => exact .inr ⟨.inr rfl, _, rfl⟩
  | mul ra rb => exact .inl (by simp [effect])
  | jeq ra => left; simp only [effect]; split <;> rfl
  | jne ra => left; simp only [effect]; split <;> rfl
  | _ => exact .inl rfl

/-- Settles O43: of the states a step leaves only the effects of PUSH and CALL have another memory array, in one cell. -/
theorem onlyPushAndCallWriteMemory : Obligations.OnlyPushAndCallWriteMemory := by
  intro s t addr hs hne
  rcases step_next_cases hs with ⟨-, r, rfl⟩ | ⟨opcode, a, b, i, hf, hd, -, rfl⟩ | ⟨-, rfl⟩
  · exact absurd rfl hne
  · obtain rfl := opcode_of_decode hd
    rcases effect_mem_cases i s with hmem | ⟨hop, v, hmem⟩
    · exact absurd (State.memRead_congr hmem addr) hne
    · rw [State.memRead_congr hmem] at hne
      refine ⟨by_contra fun haddr => hne (s.memRead_store_other v haddr), a, b, ?fetched⟩
      rcases hop with hop | hop
      · exact .inl (hop ▸ hf)
      · exact .inr (hop ▸ hf)
  · exact absurd rfl hne

/-! ### Registers -/

/-- The register that a write changed is the one written to. -/
theorem State.eq_of_setReg_reg_ne {s : State} {i j : RegIndex} {v : Byte} (h : (s.setReg i v).reg j ≠ s.reg j) : i = j :=
  by_contra fun hij => h (s.reg_setReg_other i j v (Ne.symm hij))

/-- The register that the leading operand byte names has the number that is latched as `operand_a`. -/
theorem operandA_toNat_eq {ra a b : Byte} {rest : List Byte} {j : RegIndex} (hra : ra.toNat < 8)
    (hbytes : ra :: rest <+: [a, b]) (hj : regOf ra = j) : a.toNat = j.val := by
  obtain rfl : ra = a := (List.cons_prefix_cons.1 hbytes).1
  rw [← hj, regOf_of_lt hra]

/-- Which instruction writes which register: LDI, ADD, MUL and POP the one that `operand_a` names, and PUSH, POP, CALL and
RET `X[7]`. -/
theorem effect_reg_ne {i : Instr} {s : State} {a b : Byte} {j : RegIndex} (hbytes : i.operandBytes <+: [a, b])
    (hgood : firstBadIndex i s.flag = none) (hne : (effect i s).reg j ≠ s.reg j) :
    (i.opcode ∈ [0x82#8, 0xA0#8, 0xA2#8, 0x46#8] ∧ a.toNat = j.val) ∨
      (i.opcode ∈ [0x45#8, 0x46#8, 0x50#8, 0x11#8] ∧ j = 7) := by
  rw [firstBadIndex_eq_none_iff] at hgood
  cases i with
  | ldi ra imm8 =>
    have hj : regOf ra = j := State.eq_of_setReg_reg_ne hne
    exact .inl ⟨by simp [Instr.opcode], operandA_toNat_eq (hgood ra (by simp [checkedIndices])) hbytes hj⟩
  | add ra rb =>
    have hj : regOf ra = j := State.eq_of_setReg_reg_ne hne
    exact .inl ⟨by simp [Instr.opcode], operandA_toNat_eq (hgood ra (by simp [checkedIndices])) hbytes hj⟩
  | mul ra rb =>
    have hj : regOf ra = j := State.eq_of_setReg_reg_ne (by simpa [effect] using hne)
    exact .inl ⟨by simp [Instr.opcode], operandA_toNat_eq (hgood ra (by simp [checkedIndices])) hbytes hj⟩
  | pop ra =>
    by_cases h7 : j = 7
    · exact .inr ⟨by simp [Instr.opcode], h7⟩
    · have hj : regOf ra = j := State.eq_of_setReg_reg_ne (by simpa [effect, State.incSp_reg, h7] using hne)
      exact .inl ⟨by simp [Instr.opcode], operandA_toNat_eq (hgood ra (by simp [checkedIndices])) hbytes hj⟩
  | push ra => exact .inr ⟨by simp [Instr.opcode], (State.eq_of_setReg_reg_ne hne).symm⟩
  | call ra => exact .inr ⟨by simp [Instr.opcode], (State.eq_of_setReg_reg_ne hne).symm⟩
  | ret => exact .inr ⟨by simp [Instr.opcode], (State.eq_of_setReg_reg_ne hne).symm⟩
  | prn ra => exact absurd rfl hne
  | cmp ra rb => exact absurd rfl hne
  | jmp ra => exact absurd rfl hne
  | jeq ra => simp only [effect] at hne; split at hne <;> exact absurd rfl hne
  | jne ra => simp only [effect] at hne; split at hne <;> exact absurd rfl hne
  | hlt => exact absurd rfl hne

/-- Settles O45: fault entry and a stopped controller write no register, and an effect by `effect_reg_ne`. -/
theorem registerWritesFollowTheTable : Obligations.RegisterWritesFollowTheTable := by
  intro s t j hs hne
  rcases step_next_cases hs with ⟨-, r, rfl⟩ | ⟨opcode, a, b, i, hf, hd, hgood, rfl⟩ | ⟨-, rfl⟩
  · exact absurd rfl hne
  · obtain ⟨rfl, hbytes⟩ := decode_ok_iff.1 hd
    exact ⟨_, a, b, hf, effect_reg_ne hbytes hgood hne⟩
  · exact absurd rfl hne

end Sys2Proof.Machine
end

section
/-! PROOFS. Where `PC` goes after a step (10_state.md R27, R28; 40_fetch_decode_execute.md R105), op-code by op-code. -/

namespace Sys2Proof.Machine

/-- A byte is a `PC` below 256 (10_state.md R27). -/
theorem jumpTo_pc_le (s : State) (target : Byte) : (s.jumpTo target).pc.toNat ≤ 256 :=
  (byte_address_lt target).le

section
variable {s : State} (hpc : s.pc.toNat ≤ 253)
include hpc

/-- The advance after a fetched instruction does not wrap (10_state.md R28). -/
theorem advance_pc_toNat {w : Nat} (hw : w ≤ 3) : (s.advance w).pc.toNat = s.pc.toNat + w :=
  pc_add_toNat (hpc.trans (by decide)) hw

theorem advance_pc_le {w : Nat} (hw : w ≤ 3) : (s.advance w).pc.toNat ≤ 256 := by
  rw [advance_pc_toNat hpc hw]; omega

/-- The instruction fetched at 253 or below leaves a `PC` of at most 256: it advances by its width, goes to a byte, or
halts. -/
theorem effect_pc_le (i : Instr) : (effect i s).pc.toNat ≤ 256 := by
  cases i with
  | ldi ra imm8 => exact advance_pc_le hpc (w := 3) (by decide)
  | add ra rb => exact advance_pc_le hpc (w := 3) (by decide)
  | mul ra rb => simpa [effect] using advance_pc_le hpc (w := 3) (by decide)
  | cmp ra rb => exact advance_pc_le hpc (w := 3) (by decide)
  | prn ra => exact advance_pc_le hpc (w := 2) (by decide)
  | push ra => exact advance_pc_le hpc (w := 2) (by decide)
  | pop ra => exact advance_pc_le hpc (w := 2) (by decide)
  | call ra => exact jumpTo_pc_le s _
  | ret => exact jumpTo_pc_le s _
  | jmp ra => exact jumpTo_pc_le s _
  | jeq ra => simp only [effect]; split; exacts [jumpTo_pc_le s _, advance_pc_le hpc (by decide)]
  | jne ra => simp only [effect]; split; exacts [advance_pc_le hpc (by decide), jumpTo_pc_le s _]
  | hlt => exact hpc.trans (by decide)

/-- After LDI, ADD, MUL and CMP. -/
theorem effect_pc_of_width_three {i : Instr} (h : i.opcode ∈ [0x82#8, 0xA0#8, 0xA2#8, 0xA7#8]) :
    (effect i s).pc.toNat = s.pc.toNat + 3 := by
  cases i with
  | ldi ra imm8 => exact advance_pc_toNat hpc (w := 3) (by decide)
  | add ra rb => exact advance_pc_toNat hpc (w := 3) (by decide)
  | mul ra rb => simpa [effect] using advance_pc_toNat hpc (w := 3) (by decide)
  | cmp ra rb => exact advance_pc_toNat hpc (w := 3) (by decide)
  | _ => simp [Instr.opcode] at h

/-- After PRN, PUSH and POP. -/
theorem effect_pc_of_width_two {i : Instr} (h : i.opcode ∈ [0x47#8, 0x45#8, 0x46#8]) :
    (effect i s).pc.toNat = s.pc.toNat + 2 := by
  cases i with
  | prn ra => exact advance_pc_toNat hpc (w := 2) (by decide)
  | push ra => exact advance_pc_toNat hpc (w := 2) (by decide)
  | pop ra => exact advance_pc_toNat hpc (w := 2) (by decide)
  | _ => simp [Instr.opcode] at h

/-- After JEQ and JNE, not taken. -/
theorem effect_pc_of_not_taken {i : Instr}
    (h : (i.opcode = 0x55#8 ∧ s.flag = false) ∨ (i.opcode = 0x56#8 ∧ s.flag = true)) :
    (effect i s).pc.toNat = s.pc.toNat + 2 := by
  cases i with
  | jeq ra =>
    have hflag : s.flag = false := by simpa [Instr.opcode] using h
    simpa [effect, hflag] using advance_pc_toNat hpc (w := 2) (by decide)
  | jne ra =>
    have hflag : s.flag = true := by simpa [Instr.opcode] using h
    simpa [effect, hflag] using advance_pc_toNat hpc (w := 2) (by decide)
  | _ => simp [Instr.opcode] at h

end

/-- After CALL, JMP and a conditional jump taken: the register that `operand_a` names, as the step leaves it. -/
theorem effect_pc_of_taken {i : Instr} {s : State} {a b : Byte} (hbytes : i.operandBytes <+: [a, b])
    (hgood : firstBadIndex i s.flag = none)
    (h : i.opcode ∈ [0x50#8, 0x54#8] ∨ (i.opcode = 0x55#8 ∧ s.flag = true) ∨ (i.opcode = 0x56#8 ∧ s.flag = false)) :
    ∃ h : a.toNat < 8, (effect i s).pc = ((effect i s).reg ⟨a.toNat, h⟩).setWidth 9 := by
  rw [firstBadIndex_eq_none_iff] at hgood
  cases i with
  | call ra =>
    obtain rfl : ra = a := (List.cons_prefix_cons.1 hbytes).1
    have ha : ra.toNat < 8 := hgood ra (by simp [checkedIndices])
    exact ⟨ha, by simp [effect, regOf_of_lt ha]⟩
  | jmp ra =>
    obtain rfl : ra = a := (List.cons_prefix_cons.1 hbytes).1
    have ha : ra.toNat < 8 := hgood ra (by simp [checkedIndices])
    exact ⟨ha, by simp [effect, regOf_of_lt ha]⟩
  | jeq ra =>
    obtain rfl : ra = a := (List.cons_prefix_cons.1 hbytes).1
    have hflag : s.flag = true := by simpa [Instr.opcode] using h
    have ha : ra.toNat < 8 := hgood ra (by simp [checkedIndices, hflag])
    exact ⟨ha, by simp [effect, hflag, regOf_of_lt ha]⟩
  | jne ra =>
    obtain rfl : ra = a := (List.cons_prefix_cons.1 hbytes).1
    have hflag : s.flag = false := by simpa [Instr.opcode] using h
    have ha : ra.toNat < 8 := hgood ra (by simp [checkedIndices, hflag])
    exact ⟨ha, by simp [effect, hflag, regOf_of_lt ha]⟩
  | _ => simp [Instr.opcode] at h

/-- After RET: the popped byte. -/
theorem effect_pc_of_ret {i : Instr} (s : State) (h : i.opcode = 0x11#8) :
    ∃ v : Byte, s.memRead s.spAddr = some v ∧ (effect i s).pc = v.setWidth 9 := by
  cases i with
  | ret => exact ⟨_, s.memRead_spAddr, rfl⟩
  | _ => simp [Instr.opcode] at h

/-- After HLT `PC` keeps its address (decision D13). -/
theorem effect_pc_of_hlt {i : Instr} (s : State) (h : i.opcode = 0x01#8) : (effect i s).pc = s.pc := by
  cases i with
  | hlt => rfl
  | _ => simp [Instr.opcode] at h

/-- Settles O12: fault entry keeps `PC`, and each class of op-codes has its lemma about the effect. -/
theorem pcAfterAStep : Obligations.PcAfterAStep := by
  refine ⟨fun s t hr hs hterm => ?fault, fun s t opcode a b hf hs => ?fetched⟩
  case fault =>
    obtain ⟨r, ⟨-, -, hpc, -⟩, -⟩ := faultEntryDoesNothingElse s t hr hs hterm
    exact hpc
  case fetched =>
    have hpc := hf.pcLe
    rcases step_next_cases hs with ⟨-, r, rfl⟩ | ⟨_, _, _, i, hf', hd, hgood, rfl⟩ | ⟨hstopped, -⟩
    · exact ⟨hpc.trans (by decide), fun _ => rfl, fun hr => by cases hr⟩
    · obtain ⟨rfl, rfl, rfl⟩ := hf.unique hf'
      obtain ⟨rfl, hbytes⟩ := decode_ok_iff.1 hd
      exact ⟨effect_pc_le hpc i, effect_pc_of_hlt s, fun _ => ⟨effect_pc_of_width_three hpc, effect_pc_of_width_two hpc,
        effect_pc_of_not_taken hpc, effect_pc_of_taken hbytes hgood, effect_pc_of_ret s⟩⟩
    · exact absurd hf.running hstopped

end Sys2Proof.Machine
end

section
/-! PROOFS. The invariant (10_state.md R26, R33): every step keeps it, by fault entry, by the effect of an
instruction, or by rest. -/

namespace Sys2Proof.Machine

/-- The effect of an instruction keeps the canonical form of the memory. -/
theorem effect_mem_wf (i : Instr) {s : State} (h : s.mem.wf) : (effect i s).mem.wf := by
  rcases effect_mem_cases i s with hmem | ⟨-, v, hmem⟩
  · rwa [hmem]
  · rw [hmem]
    exact Memory.wf_write _ v s.decSp.spAddr_lt h

/-- A running controller has no record. -/
theorem State.Inv.fault_eq_none {s : State} (h : s.Inv) (hr : s.run = .running) : s.fault = none := by
  simpa [hr] using h.faultIff

/-- The effect of a fetched instruction keeps the invariant. -/
theorem State.Inv.effect {s : State} (h : s.Inv) (hr : s.run = .running) (hpc : s.pc.toNat ≤ 253) (i : Instr) :
    (effect i s).Inv where
  memWf := effect_mem_wf i h.memWf
  pcLe := effect_pc_le hpc i
  faultIff := by simp [h.fault_eq_none hr, effect_run_ne_terminated i hr]
  faultShape := by simp [h.fault_eq_none hr]

/-- Fault entry keeps the invariant when the record has a program's shape and the `PC` of the instruction. -/
theorem State.Inv.takeFault {s : State} (h : s.Inv) {r : FaultRecord} (hshape : r.Shape) (hrpc : r.pc = s.pc) :
    (s.takeFault r).Inv where
  memWf := h.memWf
  pcLe := h.pcLe
  faultIff := by simp
  faultShape := by
    rintro r' ⟨⟩
    exact ⟨hshape, hrpc⟩

/-! ### The shapes of the records (10_state.md R33) -/

theorem unknownInstructionRecord_shape (s : State) (opcode : Byte) : (unknownInstructionRecord s opcode).Shape :=
  ⟨rfl, rfl, rfl, rfl⟩

theorem regOutOfRangeRecord_shape (s : State) (opcode : Byte) {index : Byte} (h : 8 ≤ index.toNat) :
    (regOutOfRangeRecord s opcode index).Shape :=
  ⟨rfl, .inr ⟨rfl, rfl, index, h, rfl⟩⟩

/-- A memory record is at 256, and has no op-code exactly when `PC` is 256. -/
theorem memOutOfRangeRecord_shape {s : State} {opcode : Option Byte} (h : opcode = none ↔ s.pc = 256#9) :
    (memOutOfRangeRecord s opcode 256#9).Shape :=
  ⟨rfl, .inl ⟨rfl, rfl, h⟩⟩

/-- Settles O46: each raise in `step_cases` has a record of its shape, where 256 is the only `PC` above 255 that the
invariant allows, and the effect of the instruction keeps the invariant. -/
theorem stepKeepsTheInvariant : Obligations.StepKeepsTheInvariant := by
  intro s t hinv hs
  by_cases hr : s.run = .running
  case neg =>
    obtain rfl : s = t := Host.Outcome.next.inj ((step_of_stopped hr).symm.trans hs)
    exact hinv
  rcases step_cases hr with ⟨hpc, e⟩ | ⟨hpc, e⟩ | ⟨opcode, _, _, -, -, e⟩ | ⟨opcode, _, _, _, index, -, -, hbad, e⟩ |
    ⟨_, _, _, i, hf, -, -, e⟩
  · obtain rfl := eq_takeFault_of_raise (e.symm.trans hs)
    have h256 := hinv.pc_eq_of_gt hpc
    have hshape := memOutOfRangeRecord_shape (s := s) (opcode := none) (iff_of_true rfl h256)
    rw [← h256] at hshape
    exact hinv.takeFault hshape rfl
  · obtain rfl := eq_takeFault_of_raise (e.symm.trans hs)
    have h256 : s.pc ≠ 256#9 := by
      intro h
      simp [h] at hpc
    exact hinv.takeFault (memOutOfRangeRecord_shape (iff_of_false (by simp) h256)) rfl
  · obtain rfl := eq_takeFault_of_raise (e.symm.trans hs)
    exact hinv.takeFault (unknownInstructionRecord_shape s opcode) rfl
  · obtain rfl := eq_takeFault_of_raise (e.symm.trans hs)
    exact hinv.takeFault (regOutOfRangeRecord_shape s opcode (le_toNat_of_firstBadIndex hbad)) rfl
  · obtain rfl := Host.Outcome.next.inj (e.symm.trans hs)
    exact hinv.effect hr hf.pcLe i

end Sys2Proof.Machine
end

section
/-! PROOFS. Reset and load (10_state.md R37, 70_reset_and_hazards.md R230, R231): the booted state, and the invariant along
its runs. -/

namespace Sys2Proof.Machine

/-- The state of reset with a canonical memory meets the invariant. -/
theorem reset_with_mem_inv {m : Memory} (h : m.wf) : ({ State.reset with mem := m } : State).Inv where
  memWf := h
  pcLe := Nat.zero_le 256
  faultIff := by simp [State.reset]
  faultShape := by simp [State.reset]

/-- Settles O47: the memory of reset lists no cell. -/
theorem resetMeetsTheInvariant : Obligations.ResetMeetsTheInvariant := reset_with_mem_inv Memory.wf_reset

/-- The register file of reset (10_state.md R37). -/
theorem reset_reg (i : RegIndex) : State.reset.reg i = if i = 7 then 0xF4#8 else 0 := by
  have hreg := State.reg_setReg { State.reset with regs := Vector.replicate 8 0 } Config.spIndex i Config.spReset
  simpa [State.setReg, State.reset, State.reg, Config.spIndex, Config.spReset, eq_comm] using hreg

/-- Settles O48: an unlisted cell reads 0, and the rest are the fields of the reset state. -/
theorem resetValues : Obligations.ResetValues :=
  ⟨fun _ haddr => State.reset.memRead_of_lt (Nat.lt_succ_of_le haddr), reset_reg, rfl, rfl, rfl, rfl, rfl⟩

/-- The image is loaded exactly when it has 1 to 256 bytes (70_reset_and_hazards.md R231). -/
theorem boot_of_length {image : List Byte} (s : State) (h : 1 ≤ image.length ∧ image.length ≤ 256) :
    boot image s = some { State.reset with mem := Memory.writeBytes image 0 State.reset.mem } := if_pos h

theorem boot_of_bad_length {image : List Byte} (s : State) (h : ¬ (1 ≤ image.length ∧ image.length ≤ 256)) :
    boot image s = none := if_neg h

/-- Settles O49: the booted state is the one of reset with the image written at 0, which keeps the canonical form. -/
theorem bootLoadsTheImageAtZero : Obligations.BootLoadsTheImageAtZero := by
  refine fun image s => ⟨fun hlen => ⟨_, boot_of_length s hlen, fun addr haddr => ?cells, rfl, ?inv⟩, fun hlen => ?refused⟩
  case cells => rw [State.memRead_of_lt _ (Nat.lt_succ_of_le haddr), Memory.read_writeBytes_reset]
  case inv => exact reset_with_mem_inv (Memory.wf_writeBytes image 0 _ ((Nat.zero_add _).trans_le hlen.2) Memory.wf_reset)
  case refused => exact boot_of_bad_length s (by omega)

/-- A booted state meets the invariant. -/
theorem inv_of_boot {image : List Byte} {s t : State} (h : boot image s = some t) : t.Inv := by
  by_cases hlen : 1 ≤ image.length ∧ image.length ≤ 256
  · obtain ⟨t', ht', -, -, hinv⟩ := (bootLoadsTheImageAtZero image s).1 hlen
    exact Option.some.inj (ht'.symm.trans h) ▸ hinv
  · simp [boot_of_bad_length s hlen] at h

/-- Settles O51: boot meets the invariant and every step keeps it. -/
theorem everyLoadedRunKeepsTheInvariant : Obligations.EveryLoadedRunKeepsTheInvariant :=
  fun _ _ _ _ _ hboot hrun => run_keeps stepKeepsTheInvariant (inv_of_boot hboot) hrun

end Sys2Proof.Machine
end

section
/-! PROOFS. MUL under each value of `MUL_EMITS` (42_alu.md R134). -/

namespace Sys2Proof.Machine

/-- Settles O25: `mulWith_of_lt` under both values; the two states differ by the event of the new `X[a]`. -/
theorem mulEmitsOnlyUnderItsParameter : Obligations.MulEmitsOnlyUnderItsParameter :=
  fun s _ _ ha hb => ⟨_, _, mulWith_of_lt false s ha hb, mulWith_of_lt true s ha hb, rfl, rfl, rfl⟩

end Sys2Proof.Machine
end

section
/-! PROOFS. The stack (43_stack.md R140 to R142) and calls (44_call_return.md R150, R152): PUSH, POP and CALL with their
frames and faults, and what undoes what. -/

namespace Sys2Proof.Machine

/-! ### The decrement of the stack pointer -/

/-- The decrement of the stack pointer is modulo 256 (10_state.md R24). -/
theorem State.decSp_reg_seven_toNat (s : State) : (s.decSp.reg 7).toNat = ((s.reg 7).toNat + 255) % 256 := by
  rw [State.decSp_reg, if_pos rfl, BitVec.toNat_sub, Nat.add_comm]
  rfl

/-- A register read after the decrement, by the byte that names it (decision D5). -/
theorem State.decSp_reg_mk (s : State) {n : Nat} (h : n < 8) :
    s.decSp.reg ⟨n, h⟩ = if n = 7 then s.reg 7 - 1#8 else s.reg ⟨n, h⟩ := by
  simp only [State.decSp_reg, Fin.ext_iff]
  rfl

/-- The decrement of the stack pointer writes `X[7]` only (10_state.md R23). -/
theorem State.keepsRegsBut_decSp (s : State) : KeepsRegsBut [7] s s.decSp :=
  s.keepsRegsBut_setReg Config.spIndex _

/-- The decrement gives the port the address below the old stack pointer, modulo 256. -/
theorem State.decSp_spAddr (s : State) : s.decSp.spAddr = (s.reg 7 - 1#8).setWidth 9 :=
  congrArg (BitVec.setWidth 9) s.decSp_sp

/-- A store below the stack pointer changes no other address of the port. -/
theorem State.keepsMemBut_push (s : State) (v : Byte) :
    KeepsMemBut s.decSp.spAddr s (s.decSp.store s.decSp.spAddr v) :=
  s.decSp.keepsMemBut_store _ v

/-! ### PUSH, POP and CALL -/

/-- Settles O26: the encoding by its format, the effect by `execPush_of_lt` with the frames of the decrement and of the
store, and the fault because PUSH checks `ra`. -/
theorem pushStoresBelowTheStackPointer : Obligations.PushStoresBelowTheStackPointer := by
  intro s ra x
  obtain ⟨hbytes, hdecode⟩ := encode_decode_formatR (.push ra) rfl x
  refine ⟨hdecode, congrArg List.length hbytes, s.decSp_spAddr, fun h => ?effect, fun h => ?fault⟩
  case effect =>
    refine ⟨_, execPush_of_lt s h, s.decSp_reg_seven_toNat, s.keepsRegsBut_decSp, ?cell, s.keepsMemBut_push _, rfl, rfl,
      rfl, rfl, rfl⟩
    case cell => rw [State.advance_memRead, State.memRead_store_same _ _ s.decSp.spAddr_lt, State.decSp_reg_mk]
  case fault => exact exec_faults_of_badIndex (firstBadIndex_of_checks_one rfl h)

/-- POP writes its register and the stack pointer only. -/
theorem State.keepsRegsBut_setReg_incSp (s : State) (i : RegIndex) (v : Byte) :
    KeepsRegsBut [i, 7] s (s.setReg i v).incSp := by
  intro j hj
  rw [List.mem_cons, List.mem_singleton, not_or] at hj
  rw [State.incSp_reg, if_neg hj.2, s.reg_setReg_other i j v hj.1]

/-- Settles O27: the encoding by its format, the effect by `execPop_of_lt`, where the increment reads what the load left in
`X[7]`, and the fault because POP checks `ra`. -/
theorem popLoadsFromTheStackPointer : Obligations.PopLoadsFromTheStackPointer := by
  intro s ra x
  obtain ⟨hbytes, hdecode⟩ := encode_decode_formatR (.pop ra) rfl x
  refine ⟨hdecode, congrArg List.length hbytes, fun h => ?effect, fun h => ?fault⟩
  case effect =>
    refine ⟨_, _, s.memRead_spAddr, execPop_of_lt s h, fun h7 => ⟨?loaded, ?sp⟩, fun h7 => ?popSp,
      (s.keepsRegsBut_setReg_incSp _ _).advance 2, fun _ => rfl, rfl, rfl, rfl, rfl, rfl⟩
    case loaded =>
      have hne : (⟨ra.toNat, h⟩ : RegIndex) ≠ 7 := fun e => h7 (congrArg Fin.val e)
      rw [State.advance_reg, State.incSp_reg, if_neg hne, State.reg_setReg_same]
    case sp =>
      have hne : (7 : RegIndex) ≠ ⟨ra.toNat, h⟩ := fun e => h7 (congrArg Fin.val e).symm
      rw [State.advance_reg, State.incSp_reg_seven_toNat, s.reg_setReg_other _ _ _ hne]
    case popSp =>
      have heq : (⟨ra.toNat, h⟩ : RegIndex) = 7 := Fin.ext h7
      rw [State.advance_reg, State.incSp_reg_seven_toNat, heq, State.reg_setReg_same]
  case fault => exact exec_faults_of_badIndex (firstBadIndex_of_checks_one rfl h)

/-- The return address of a CALL that was fetched is a byte (44_call_return.md R150). -/
theorem returnAddress_toNat {s : State} (h : s.pc.toNat ≤ 253) : (returnAddress s).toNat = s.pc.toNat + 2 := by
  have hsum : (s.pc + 2#9).toNat = s.pc.toNat + 2 := pc_add_toNat (k := 2) (h.trans (by decide)) (by decide)
  rw [returnAddress, BitVec.toNat_setWidth, hsum]
  omega

/-- Settles O30: the encoding by its format, the effect by `execCall_of_lt` with the frames of the decrement and of the
store, and the fault because CALL checks `ra`. -/
theorem callPushesTheReturnAddress : Obligations.CallPushesTheReturnAddress := by
  intro s ra x
  obtain ⟨hbytes, hdecode⟩ := encode_decode_formatR (.call ra) rfl x
  refine ⟨hdecode, congrArg List.length hbytes, s.decSp_spAddr, fun h => ?effect, fun h => ?fault⟩
  case effect =>
    exact ⟨_, execCall_of_lt s h, s.decSp_reg_seven_toNat, s.keepsRegsBut_decSp,
      ⟨returnAddress s, s.decSp.memRead_store_same _ s.decSp.spAddr_lt, returnAddress_toNat⟩, s.keepsMemBut_push _,
      congrArg (BitVec.setWidth 9) (s.decSp_reg_mk h), rfl, rfl, rfl, rfl⟩
  case fault => exact exec_faults_of_badIndex (firstBadIndex_of_checks_one rfl h)

/-! ### What undoes what -/

section
variable {t t' : State} (hsp : t'.reg 7 = t.reg 7)
include hsp

/-- The cell at the stack pointer, read by POP or RET in a later state that kept both. -/
theorem read_spAddr_of_kept {v : Byte} (hcell : t'.memRead t.spAddr = t.memRead t.spAddr)
    (hv : t.memRead t.spAddr = some v) : t'.mem.read t'.spAddr.toNat = v := by
  have haddr : t'.spAddr = t.spAddr := congrArg (BitVec.setWidth 9) hsp
  rw [hv, ← haddr, State.memRead_spAddr] at hcell
  exact Option.some.inj hcell

/-- The increment takes back the decrement. -/
theorem incSp_of_kept {s : State} (ht : t.reg 7 = s.decSp.reg 7) : t'.incSp.reg 7 = s.reg 7 := by
  rw [State.incSp_reg, if_pos rfl, hsp, ht, State.decSp_reg, if_pos rfl, BitVec.sub_add_cancel]

end

/-- Settles O28: POP loads the byte that PUSH stored. For `X[7]` that is the decremented value, which the increment takes
back; for another register it is the register, and the increment takes back `X[7]`. -/
theorem pushThenPopRestores : Obligations.PushThenPopRestores := by
  intro s ra h
  refine ⟨_, execPush_of_lt s h, fun t' hsp hcell => ?_⟩
  have hload := read_spAddr_of_kept hsp hcell (s.decSp.memRead_store_same _ s.decSp.spAddr_lt)
  refine ⟨_, execPop_of_lt t' h, ?register, ?sp, hcell⟩
  case register =>
    rw [hload, State.advance_reg, State.incSp_reg, State.decSp_reg]
    by_cases h7 : (⟨ra.toNat, h⟩ : RegIndex) = 7
    · simp [h7]
    · simp [h7]
  case sp =>
    rw [hload, State.advance_reg]
    by_cases h7 : (⟨ra.toNat, h⟩ : RegIndex) = 7
    · exact incSp_of_kept (t := s.decSp) (by rw [h7, State.reg_setReg_same]) rfl
    · exact incSp_of_kept ((t'.reg_setReg_other _ _ _ (Ne.symm h7)).trans hsp) rfl

/-- Settles O32: RET loads the return address that CALL stored, and the increment takes back the decrement. -/
theorem callThenRetReturns : Obligations.CallThenRetReturns := by
  intro s ra h hpc
  refine ⟨_, execCall_of_lt s h, fun t' hsp hcell => ?_⟩
  have hload := read_spAddr_of_kept hsp hcell (s.decSp.memRead_store_same _ s.decSp.spAddr_lt)
  refine ⟨_, execRet_eq t', ?pc, incSp_of_kept (t' := t'.jumpTo _) hsp rfl⟩
  case pc => rw [hload, State.incSp_pc, State.jumpTo_pc, byte_address_toNat, returnAddress_toNat hpc]

/-- Settles O29: the fetch reads the cell that PUSH stored to. -/
theorem pushedByteIsFetchedNext : Obligations.PushedByteIsFetchedNext := by
  intro s ra h
  refine ⟨_, execPush_of_lt s h, fun hpc hle => ⟨_, fetch_of_le hle, ?_⟩⟩
  rw [hpc, State.advance_mem, State.store_mem, Memory.read_write, if_pos rfl]

end Sys2Proof.Machine
end

section
/-! PROOFS. The conditional jumps (45_compare_branch.md R162, R163): taken, with the check of their index, or not taken,
without it (decision D7). -/

namespace Sys2Proof.Machine

section
variable (s : State) (opcode : Byte) {ra : Byte} {taken : Bool}

/-- A jump taken goes to its register and writes `PC` only. -/
theorem jumpIf_of_taken (htaken : taken = true) (h : ra.toNat < 8) :
    ∃ t, jumpIf s opcode ra taken = .next t ∧ t.pc = (s.reg ⟨ra.toNat, h⟩).setWidth 9 ∧
      t.flag = s.flag ∧ KeepsRegsBut [] s t ∧ KeepsMem s t ∧ t.out = s.out ∧ KeepsRun s t := by
  subst htaken
  exact ⟨_, jumpIf_taken s opcode h, rfl, rfl, fun _ _ => rfl, fun _ => rfl, rfl, rfl, rfl⟩

/-- A jump not taken goes on to the next instruction, whatever its operand byte, and writes `PC` only. -/
theorem jumpIf_of_not_taken (htaken : taken = false) :
    ∃ t, jumpIf s opcode ra taken = .next t ∧ t.pc = s.pc + 2#9 ∧
      t.flag = s.flag ∧ KeepsRegsBut [] s t ∧ KeepsMem s t ∧ t.out = s.out ∧ KeepsRun s t := by
  subst htaken
  exact ⟨_, jumpIf_not_taken s opcode ra, rfl, rfl, fun _ _ => rfl, fun _ => rfl, rfl, rfl, rfl⟩

end

/-- Settles O35: JEQ is `jumpIf` on FLAG, and checks `ra` when FLAG is 1. -/
theorem jeqJumpsWhenTheFlagIsSet : Obligations.JeqJumpsWhenTheFlagIsSet := by
  intro s ra x
  obtain ⟨hbytes, hdecode⟩ := encode_decode_formatR (.jeq ra) rfl x
  refine ⟨hdecode, congrArg List.length hbytes, fun hflag h => ?taken, fun hflag h => ?fault, fun hflag => ?notTaken⟩
  case taken => exact jumpIf_of_taken s (Instr.jeq ra).opcode hflag h
  case fault => exact exec_faults_of_badIndex (firstBadIndex_of_checks_one (by rw [hflag]; rfl) h)
  case notTaken => exact jumpIf_of_not_taken s (Instr.jeq ra).opcode hflag

/-- Settles O36: JNE is `jumpIf` on the negated FLAG, and checks `ra` when FLAG is 0. -/
theorem jneJumpsWhenTheFlagIsClear : Obligations.JneJumpsWhenTheFlagIsClear := by
  intro s ra x
  obtain ⟨hbytes, hdecode⟩ := encode_decode_formatR (.jne ra) rfl x
  refine ⟨hdecode, congrArg List.length hbytes, fun hflag h => ?taken, fun hflag h => ?fault, fun hflag => ?notTaken⟩
  case taken => exact jumpIf_of_taken s (Instr.jne ra).opcode (congrArg not hflag) h
  case fault => exact exec_faults_of_badIndex (firstBadIndex_of_checks_one (by rw [hflag]; rfl) h)
  case notTaken => exact jumpIf_of_not_taken s (Instr.jne ra).opcode (congrArg not hflag)

end Sys2Proof.Machine
end

section
/-! PROOFS. Successful runs (70_reset_and_hazards.md R239): they do not depend on their fuel. -/

namespace Sys2Proof.Machine

/-- A halted state is its own result, after no step. -/
theorem runToHalt_of_halted {s : State} (n : Nat) (h : s.run = .halted) : runToHalt n s = some (s, 0) := by
  cases n <;> simp [runToHalt, h]

/-- A running state has a result only with fuel, and then the one of its next state, after one step more. -/
theorem runToHalt_of_running {s t : State} {n k : Nat} (hr : s.run = .running) (h : runToHalt n s = some (t, k)) :
    ∃ n' k' u, n = n' + 1 ∧ k = k' + 1 ∧ step s = .next u ∧ runToHalt n' u = some (t, k') := by
  cases n with
  | zero => simp [runToHalt, hr] at h
  | succ n' =>
    obtain ⟨u, hu⟩ := everyStateHasANextState s
    simp only [runToHalt, hr, hu, Option.map_eq_some_iff, Prod.mk.injEq] at h
    obtain ⟨⟨_, k'⟩, hrest, rfl, rfl⟩ := h
    exact ⟨n', k', u, rfl, rfl, hu, hrest⟩

/-- A step of a running state goes before a result of its next state. -/
theorem runToHalt_succ {s u t : State} {n k : Nat} (hr : s.run = .running) (hu : step s = .next u)
    (h : runToHalt n u = some (t, k)) : runToHalt (n + 1) s = some (t, k + 1) := by
  simp [runToHalt, hr, hu, h]

/-- A terminated state has no result. -/
theorem run_ne_terminated_of_runToHalt {s t : State} {n k : Nat} (h : runToHalt n s = some (t, k)) :
    s.run ≠ .terminated := by
  intro hr
  cases n <;> simp [runToHalt, hr] at h

/-- Settles O40, by induction on the fuel: a halted state answers itself, for the machine's run by O10; from a running one,
every run goes on from the same next state. -/
theorem haltedRunsDoNotDependOnFuel : Obligations.HaltedRunsDoNotDependOnFuel := by
  intro n
  induction n using Nat.strong_induction_on with
  | _ n ih =>
    intro m k s t h hnm
    cases hr : s.run with
    | halted =>
      obtain ⟨rfl, rfl⟩ : s = t ∧ 0 = k := by simpa [runToHalt_of_halted n hr] using h
      exact ⟨runToHalt_of_halted m hr, n.zero_le, hr, stoppedMachineNeverChanges m s (by simp [hr])⟩
    | running =>
      obtain ⟨n', k', u, rfl, rfl, hu, hrest⟩ := runToHalt_of_running hr h
      obtain ⟨m', rfl⟩ := Nat.exists_eq_add_of_le' (Nat.le_of_add_left_le hnm)
      obtain ⟨hmore, hk, hhalted, hrun⟩ := ih n' n'.lt_succ_self m' k' u t hrest (Nat.le_of_succ_le_succ hnm)
      exact ⟨runToHalt_succ hr hu hmore, Nat.succ_le_succ hk, hhalted, run_succ_next_iff.2 ⟨u, hu, hrun⟩⟩
    | terminated => exact absurd hr (run_ne_terminated_of_runToHalt h)

end Sys2Proof.Machine
end

section
/-! PROOFS. The canonical form of the memory (20_memory.md R50; log entry 6): the list is determined by what it reads as. -/

namespace Sys2Proof.Machine

/-- A listed cell of a sorted list reads as listed. -/
theorem Memory.read_eq_of_mem {m : Memory} (h : m.Pairwise (fun c d => c.1 < d.1)) {c : Host.Cell} (hc : c ∈ m) :
    m.read c.1 = c.2 := by
  induction m with
  | nil => cases hc
  | cons d rest ih =>
    obtain ⟨hd, hrest⟩ := List.pairwise_cons.1 h
    rcases List.mem_cons.1 hc with rfl | hc
    · simp [Memory.read]
    · simp [Memory.read, (hd c hc).ne, ih hrest hc]

/-- An address that does not read as an unlisted cell does is listed, with what it reads as. -/
theorem Memory.mem_of_read_ne {m : Memory} {a : Nat} (h : m.read a ≠ Memory.unlisted) : (a, m.read a) ∈ m := by
  induction m with
  | nil => exact absurd rfl h
  | cons d rest ih =>
    by_cases hd : d.1 = a
    · subst hd
      simp [Memory.read]
    · simp only [Memory.read, hd, if_false] at h ⊢
      exact List.mem_cons_of_mem d (ih h)

/-- Every cell of a canonical memory is listed in a canonical memory that reads alike. -/
theorem Memory.subset_of_read_eq {m n : Memory} (hm : m.wf) (hread : ∀ a : Nat, a < 256 → m.read a = n.read a) : m ⊆ n := by
  intro c hc
  obtain ⟨hlt, hne⟩ := hm.2 c hc
  have hc2 : n.read c.1 = c.2 := (hread c.1 hlt).symm.trans (Memory.read_eq_of_mem hm.1 hc)
  have hlisted : (c.1, n.read c.1) ∈ n := Memory.mem_of_read_ne (by rwa [hc2])
  rwa [hc2] at hlisted

/-- Settles O42: the two sorted lists have the same cells, in the one order that their addresses give. -/
theorem canonicalMemoriesWithEqualReadsAreEqual : Obligations.CanonicalMemoriesWithEqualReadsAreEqual := by
  intro m n hm hn hread
  have hmn : m ⊆ n := Memory.subset_of_read_eq hm hread
  have hnm : n ⊆ m := Memory.subset_of_read_eq hn fun a ha => (hread a ha).symm
  have nodup : ∀ {l : Memory}, l.wf → l.Nodup := fun hl => hl.1.imp fun hlt e => hlt.ne (congrArg Prod.fst e)
  have hperm : m.Perm n := (List.perm_ext_iff_of_nodup (nodup hm) (nodup hn)).2 fun c => ⟨fun h => hmn h, fun h => hnm h⟩
  exact hperm.eq_of_pairwise (fun c d _ _ hcd hdc => absurd hcd hdc.asymm) hm.1 hn.1

end Sys2Proof.Machine
end

section
/-! PROOFS. The memory port's transactions in a step (40_fetch_decode_execute.md R110; 20_memory.md R52): the fetches first,
then at most one of the handler. -/

namespace Sys2Proof.Machine

/-! ### The fetches -/

/-- A fetched instruction reads its three bytes, in order (R101, R102). -/
theorem State.Fetches.fetchAccesses_eq {s : State} {opcode a b : Byte} (h : s.Fetches opcode a b) :
    fetchAccesses s = [.read (s.pc.setWidth 8) opcode, .read ((s.pc + 1#9).setWidth 8) a,
      .read ((s.pc + 2#9).setWidth 8) b] := by
  simp [fetchAccesses, readAccesses, h.opcodeAt, h.operandAAt, h.operandBAt]

/-- Above 255 no address appears on the port. -/
theorem fetchAccesses_of_gt {s : State} (h : 255 < s.pc.toNat) : fetchAccesses s = [] := by
  simp [fetchAccesses, readAccesses, s.memRead_of_ge h]

/-- At 255 the op-code is read, and no operand. -/
theorem fetchAccesses_of_255 {s : State} (h : s.pc = 255#9) : fetchAccesses s = [.read 255#8 (s.mem.read 255)] := by
  simp [fetchAccesses, readAccesses, State.memRead, Config.memSize, h]

/-- At 254 the op-code and `operand_a` are read. -/
theorem fetchAccesses_of_254 {s : State} (h : s.pc = 254#9) :
    fetchAccesses s = [.read 254#8 (s.mem.read 254), .read 255#8 (s.mem.read 255)] := by
  simp [fetchAccesses, readAccesses, State.memRead, Config.memSize, h]

/-! ### The handler's transaction -/

/-- What a handler can do on the port: nothing, a read at the stack pointer, or a write below it. -/
theorem handlerAccesses_cases (i : Instr) (s : State) :
    handlerAccesses i s = [] ∨
    handlerAccesses i s = [.read (s.spAddr.setWidth 8) (s.mem.read s.spAddr.toNat)] ∨
    ∃ data, handlerAccesses i s = [.write (s.decSp.spAddr.setWidth 8) data] := by
  have hread : readAccesses s [s.spAddr] = [.read (s.spAddr.setWidth 8) (s.mem.read s.spAddr.toNat)] := by
    simp [readAccesses, s.memRead_spAddr]
  cases i with
  | push ra =>
    cases h : regIndex ra with
    | none => exact .inl (by simp [handlerAccesses, h])
    | some a => exact .inr (.inr ⟨_, by simpa [handlerAccesses, h] using writeAccesses_spAddr s s.decSp _⟩)
  | call ra =>
    cases h : regIndex ra with
    | none => exact .inl (by simp [handlerAccesses, h])
    | some a => exact .inr (.inr ⟨_, by simpa [handlerAccesses, h] using writeAccesses_spAddr s s.decSp _⟩)
  | pop ra =>
    cases h : regIndex ra with
    | none => exact .inl (by simp [handlerAccesses, h])
    | some a => exact .inr (.inl (by simpa [handlerAccesses, h] using hread))
  | ret => exact .inr (.inl hread)
  | _ => exact .inl rfl

/-- A handler that raises has no transaction (R108). -/
theorem handlerAccesses_of_badIndex {i : Instr} {s : State} {index : Byte} (h : firstBadIndex i s.flag = some index) :
    handlerAccesses i s = [] := by
  have hbad : ∃ b ∈ checkedIndices i s.flag, 8 ≤ b.toNat :=
    ⟨index, List.mem_of_find?_eq_some h, le_toNat_of_firstBadIndex h⟩
  cases i with
  | push ra => simp [handlerAccesses, regIndex_of_ge (show 8 ≤ ra.toNat by simpa [checkedIndices] using hbad)]
  | pop ra => simp [handlerAccesses, regIndex_of_ge (show 8 ≤ ra.toNat by simpa [checkedIndices] using hbad)]
  | call ra => simp [handlerAccesses, regIndex_of_ge (show 8 ≤ ra.toNat by simpa [checkedIndices] using hbad)]
  | ret => simp [checkedIndices] at hbad
  | _ => rfl

/-- The handler's transactions, applied, give the memory array of its effect. -/
theorem foldl_handlerAccesses_mem {i : Instr} {s : State} (h : firstBadIndex i s.flag = none) :
    ((handlerAccesses i s).foldl MemAccess.apply s).mem = (effect i s).mem := by
  rw [firstBadIndex_eq_none_iff] at h
  cases i with
  | push ra =>
    have ha : ra.toNat < 8 := h ra (by simp [checkedIndices])
    simp [handlerAccesses, regIndex_of_lt ha, writeAccesses_spAddr, apply_write_spAddr, effect, regOf_of_lt ha]
  | call ra =>
    have ha : ra.toNat < 8 := h ra (by simp [checkedIndices])
    simp [handlerAccesses, regIndex_of_lt ha, writeAccesses_spAddr, apply_write_spAddr, effect]
  | pop ra =>
    have ha : ra.toNat < 8 := h ra (by simp [checkedIndices])
    simp [handlerAccesses, regIndex_of_lt ha, foldl_readAccesses, effect]
  | ret => simp [handlerAccesses, foldl_readAccesses, effect]
  | mul ra rb => simp [handlerAccesses, effect]
  | jeq ra => simp only [effect]; split <;> rfl
  | jne ra => simp only [effect]; split <;> rfl
  | _ => rfl

/-! ### The transactions of a step -/

/-- A stopped machine has no transaction (R106). -/
theorem portAccesses_of_stopped {s : State} (h : s.run ≠ .running) : portAccesses s = [] := by
  cases hr : s.run <;> simp_all [portAccesses]

theorem portAccesses_of_error {s : State} {r : FaultRecord} (hr : s.run = .running) (h : fetchDecode s = .error r) :
    portAccesses s = fetchAccesses s := by
  simp [portAccesses, hr, h]

theorem portAccesses_of_ok {s : State} {i : Instr} (hr : s.run = .running) (h : fetchDecode s = .ok i) :
    portAccesses s = fetchAccesses s ++ handlerAccesses i s := by
  simp [portAccesses, hr, h]

/-- A running controller's transactions are its fetches and then nothing, or those of a handler. -/
theorem portAccesses_cases {s : State} (hr : s.run = .running) :
    portAccesses s = fetchAccesses s ∨ ∃ i, portAccesses s = fetchAccesses s ++ handlerAccesses i s := by
  cases h : fetchDecode s with
  | error r => exact .inl (portAccesses_of_error hr h)
  | ok i => exact .inr ⟨i, portAccesses_of_ok hr h⟩

/-- Where the fetch fails, its reads are all there is. -/
theorem portAccesses_of_fetch_error {s : State} {r : FaultRecord} (hr : s.run = .running) (h : fetch s = .error r) :
    portAccesses s = fetchAccesses s :=
  portAccesses_of_error hr (fetchDecode_of_fetch_error h)

/-- The memory after a step is the memory before it with the transactions applied in order. -/
theorem keepsMem_of_portAccesses {s t : State} (hs : step s = .next t) :
    KeepsMem ((portAccesses s).foldl MemAccess.apply s) t := by
  have hfetches : (fetchAccesses s).foldl MemAccess.apply s = s := foldl_readAccesses s s _
  by_cases hr : s.run = .running
  · cases hfd : fetchDecode s with
    | error r =>
      obtain rfl := eq_takeFault_of_raise ((step_of_fetchDecode_error hr hfd).symm.trans hs)
      rw [portAccesses_of_error hr hfd, hfetches]
      exact fun _ => rfl
    | ok i =>
      rw [portAccesses_of_ok hr hfd, List.foldl_append, hfetches]
      have hexec := (step_of_fetchDecode_ok hr hfd).symm.trans hs
      cases hbad : firstBadIndex i s.flag with
      | some index =>
        obtain rfl := eq_takeFault_of_raise ((exec_of_badIndex hbad).symm.trans hexec)
        rw [handlerAccesses_of_badIndex hbad]
        exact fun _ => rfl
      | none =>
        obtain rfl := Host.Outcome.next.inj ((exec_of_goodIndex hbad).symm.trans hexec)
        exact State.memRead_congr (foldl_handlerAccesses_mem hbad).symm
  · obtain rfl := Host.Outcome.next.inj ((step_of_stopped hr).symm.trans hs)
    rw [portAccesses_of_stopped hr]
    exact fun _ => rfl

/-- A read of a handler carries the value of the cell it names. -/
theorem memRead_of_mem_handlerAccesses {i : Instr} {s : State} {addr data : Byte}
    (h : MemAccess.read addr data ∈ handlerAccesses i s) : s.memRead (addr.setWidth 9) = some data := by
  rcases handlerAccesses_cases i s with he | he | ⟨_, he⟩
  · simp [he] at h
  · obtain ⟨rfl, rfl⟩ : addr = s.spAddr.setWidth 8 ∧ data = s.mem.read s.spAddr.toNat := by simpa [he] using h
    rw [portAddress_setWidth s.spAddr_lt, s.memRead_spAddr]
  · simp [he] at h

/-- A read of a step carries the value of the cell it names. -/
theorem memRead_of_mem_portAccesses {s : State} {addr data : Byte} (h : MemAccess.read addr data ∈ portAccesses s) :
    s.memRead (addr.setWidth 9) = some data := by
  by_cases hr : s.run = .running
  · rcases portAccesses_cases hr with he | ⟨i, he⟩
    · exact memRead_of_mem_readAccesses (he ▸ h)
    · rw [he, List.mem_append] at h
      exact h.elim memRead_of_mem_readAccesses memRead_of_mem_handlerAccesses
  · simp [portAccesses_of_stopped hr] at h

/-- A handler has at most one transaction. -/
theorem handlerAccesses_length_le (i : Instr) (s : State) : (handlerAccesses i s).length ≤ 1 := by
  rcases handlerAccesses_cases i s with he | he | ⟨_, he⟩
  · simp [he]
  · simp [he]
  · simp [he]

/-- After its three reads a fetched instruction has at most one transaction. -/
theorem State.Fetches.portAccesses_eq {s : State} {opcode a b : Byte} (h : s.Fetches opcode a b) :
    ∃ rest, rest.length ≤ 1 ∧ portAccesses s = .read (s.pc.setWidth 8) opcode ::
      .read ((s.pc + 1#9).setWidth 8) a :: .read ((s.pc + 2#9).setWidth 8) b :: rest := by
  rcases portAccesses_cases h.running with he | ⟨i, he⟩
  · exact ⟨[], Nat.zero_le 1, he.trans h.fetchAccesses_eq⟩
  · exact ⟨handlerAccesses i s, handlerAccesses_length_le i s, by rw [he, h.fetchAccesses_eq]; rfl⟩

/-- Settles O44, each part by its lemma; at the ends of memory the fetch fails, so only its reads appear. -/
theorem portTransactionsExplainMemory : Obligations.PortTransactionsExplainMemory := by
  refine ⟨fun s t => keepsMem_of_portAccesses, fun s addr data => memRead_of_mem_portAccesses,
    fun s opcode a b => State.Fetches.portAccesses_eq, fun s hr => ⟨fun hgt => ?above, fun hpc => ?at255, fun hpc => ?at254⟩,
    fun s => portAccesses_of_stopped⟩
  case above => rw [portAccesses_of_fetch_error hr (fetch_of_gt hgt), fetchAccesses_of_gt hgt]
  case at255 =>
    exact ⟨_, (portAccesses_of_fetch_error hr (fetch_of_end (.inr (congrArg BitVec.toNat hpc)))).trans
      (fetchAccesses_of_255 hpc)⟩
  case at254 =>
    exact ⟨_, _, (portAccesses_of_fetch_error hr (fetch_of_end (.inl (congrArg BitVec.toNat hpc)))).trans
      (fetchAccesses_of_254 hpc)⟩

end Sys2Proof.Machine
end

section
/-! PROOFS. A word stored at `PC` (log entry 8): the next step fetches its bytes and runs what they decode to. -/

namespace Sys2Proof.Machine

/-- A store where a cell exists is a store. -/
theorem State.storeIfCell_of_lt (s : State) {addr : Address} (v : Byte) (h : addr.toNat < 256) :
    s.storeIfCell addr v = s.store addr v := by
  simp [State.storeIfCell, State.memWrite_of_lt s v h]

/-- The controller, restarted, latches the three bytes stored at `PC`. -/
theorem storeAtPc_restart_fetches {s : State} (h : s.pc.toNat ≤ 253) (b0 b1 b2 : Byte) :
    (storeAtPc s b0 b1 b2).restart.Fetches b0 b1 b2 := by
  have h1 : (s.pc + 1#9).toNat = s.pc.toNat + 1 := pc_add_toNat (k := 1) (by omega) (by omega)
  have h2 : (s.pc + 2#9).toNat = s.pc.toNat + 2 := pc_add_toNat (k := 2) (by omega) (by omega)
  have hstores : storeAtPc s b0 b1 b2 = ((s.store s.pc b0).store (s.pc + 1#9) b1).store (s.pc + 2#9) b2 := by
    rw [storeAtPc, State.storeIfCell_of_lt _ _ (by omega), State.storeIfCell_of_lt _ _ (by omega),
      State.storeIfCell_of_lt _ _ (by omega)]
  have hfetches := State.fetches_of_le (s := (storeAtPc s b0 b1 b2).restart) rfl (by rw [hstores]; exact h)
  simpa [hstores, Memory.read_write, h1, h2] using hfetches

/-- The bytes of a table word that decodes. -/
theorem decode_of_decodeTableWord {nbits w : Nat} {i : Instr} (h : decodeTableWord nbits w = some i) :
    decode (tableByte nbits w 0) (tableByte nbits w 1) (tableByte nbits w 2) = .ok i := by
  unfold decodeTableWord at h
  split at h
  · next hd => rw [hd, Option.some.inj h]
  · cases h

/-- Settles O52: the stored bytes are fetched, so by O7 the step runs what they decode to. -/
theorem fetchWordRuns : Obligations.FetchWordRuns := fun s _ _ i hpc hword =>
  stepRunsTheDecodedInstruction _ _ _ _ i (storeAtPc_restart_fetches (s := s) hpc _ _ _) (decode_of_decodeTableWord hword)

end Sys2Proof.Machine
end

section
/-! PROOFS. Status outputs and host reads (10_state.md R32, R33; 70_reset_and_hazards.md R234). -/

namespace Sys2Proof.Machine

/-- No run state has the code 0b11 (10_state.md R32). -/
theorem RunState.code_ne_three (r : RunState) : r.code ≠ 0b11 := by
  cases r <;> decide

/-- No kind of a record has the code of NONE (10_state.md R33). -/
theorem FaultKind.code_ne_zero (k : FaultKind) : k.code ≠ 0 := by
  cases k <;> decide

/-- The fault output is NONE's exactly without a record (10_state.md R33). -/
theorem State.faultCode_eq_zero_iff (s : State) : s.faultCode = 0 ↔ s.fault = none := by
  unfold State.faultCode
  cases s.fault with
  | none => exact iff_of_true rfl rfl
  | some r => exact iff_of_false r.kind.code_ne_zero (Option.some_ne_none r)

/-- Settles O53: each code is its definition; 0b11 and NONE's 0 are excluded by a case split on the run states and kinds. -/
theorem statusOutputCodes : Obligations.StatusOutputCodes :=
  ⟨rfl, rfl, rfl, RunState.code_ne_three, rfl, rfl, rfl, State.faultCode_eq_zero_iff⟩

/-- Settles O54, run state by run state. -/
theorem hostReadsOnlyAStoppedMachine : Obligations.HostReadsOnlyAStoppedMachine := by
  intro s addr i
  unfold hostReadMem hostReadReg
  cases s.run with
  | running => simp
  | halted => simp
  | terminated => simp

end Sys2Proof.Machine
end
